-- ==== Sys2Proof/Word.lean ====
section
/-! DEFINITION. The word types of the core: 00_scope R7 and R10 (32-bit registers, addresses and memory words),
30_encoding R71 (5-bit register fields). -/

namespace Sys2Proof

/-- A 32-bit register value, address or memory word (00_scope R7, R10). -/
abbrev Word := BitVec 32

/-- One byte of memory, of the input or of the output. -/
abbrev Byte := BitVec 8

/-- A register number: a 5-bit field, so always in [0, 32) (30_encoding R71, 10_state R22). -/
abbrev RegIdx := BitVec 5

end Sys2Proof
end

