-- ==== Sys2Proof/Machine/Flags.lean ====
section
/-! DEFINITION. The core has no flags (10_state R26). What stands here are the conditions its instructions compute:
signed overflow (41_arithmetic R110), the word of a comparison (R117 to R120), the sign tests of the branches
(44_branch R163 to R166). -/

namespace Sys2Proof.Machine

/-- The integer is the value of a signed 32-bit word. -/
def inSignedRange (n : Int) : Bool := decide (-2 ^ 31 ≤ n) && decide (n ≤ 2 ^ 31 - 1)

/-- `add_overflows(a, b)` (41_arithmetic R110). -/
def addOverflows (a b : Word) : Bool := !inSignedRange (a.toInt + b.toInt)

/-- `sub_overflows(a, b)` (41_arithmetic R110). -/
def subOverflows (a b : Word) : Bool := !inSignedRange (a.toInt - b.toInt)

/-- A comparison's result: 1 or 0 (10_state R26, 41_arithmetic R117). -/
def boolWord (c : Bool) : Word := if c then 0x00000001 else 0x00000000

/-- `s(a) < s(b)` (41_arithmetic R117). -/
def lessSigned (a b : Word) : Bool := decide (a.toInt < b.toInt)

/-- `u(a) < u(b)` (41_arithmetic R118). -/
def lessUnsigned (a b : Word) : Bool := decide (a.toNat < b.toNat)

/-- `s(v) < 0` (44_branch R165). -/
def isNegative (v : Word) : Bool := decide (v.toInt < 0)

/-- `s(v) > 0` (44_branch R164). -/
def isPositive (v : Word) : Bool := decide (0 < v.toInt)

end Sys2Proof.Machine
end

