-- ==== Sys2Proof/Syntax.lean ====
section
/-! DEFINITION. The instruction set: one constructor for each of the 53 rows of spec/opcode_table.json, in the table's
order (00_scope R6). A constructor holds the fields the row gives the instruction as operands; fields an instruction
does not use are ignored by the core and are no part of it (30_encoding R77, R78; log entry 6). -/

namespace Sys2Proof

/-- The instructions of 00_scope R6. Operands stand in the assembler's order (30_encoding R83). -/
inductive Instr where
  -- 41_arithmetic
  | add (rd rs rt : RegIdx)
  | addu (rd rs rt : RegIdx)
  | sub (rd rs rt : RegIdx)
  | subu (rd rs rt : RegIdx)
  | addi (rt rs : RegIdx) (imm : BitVec 16)
  | addiu (rt rs : RegIdx) (imm : BitVec 16)
  | slt (rd rs rt : RegIdx)
  | sltu (rd rs rt : RegIdx)
  | slti (rt rs : RegIdx) (imm : BitVec 16)
  | sltiu (rt rs : RegIdx) (imm : BitVec 16)
  | lui (rt : RegIdx) (imm : BitVec 16)
  | and (rd rs rt : RegIdx)
  | or (rd rs rt : RegIdx)
  | xor (rd rs rt : RegIdx)
  | andi (rt rs : RegIdx) (imm : BitVec 16)
  | ori (rt rs : RegIdx) (imm : BitVec 16)
  | xori (rt rs : RegIdx) (imm : BitVec 16)
  -- 42_multiply_divide
  | mult (rs rt : RegIdx)
  | multu (rs rt : RegIdx)
  | div (rs rt : RegIdx)
  | divu (rs rt : RegIdx)
  | mfhi (rd : RegIdx)
  | mflo (rd : RegIdx)
  | mthi (rs : RegIdx)
  | mtlo (rs : RegIdx)
  -- 43_shift
  | sll (rd rt : RegIdx) (sa : BitVec 5)
  | srl (rd rt : RegIdx) (sa : BitVec 5)
  | sra (rd rt : RegIdx) (sa : BitVec 5)
  | sllv (rd rt rs : RegIdx)
  | srlv (rd rt rs : RegIdx)
  | srav (rd rt rs : RegIdx)
  -- 44_branch
  | beq (rs rt : RegIdx) (off : BitVec 16)
  | bne (rs rt : RegIdx) (off : BitVec 16)
  | blez (rs : RegIdx) (off : BitVec 16)
  | bgtz (rs : RegIdx) (off : BitVec 16)
  | bltz (rs : RegIdx) (off : BitVec 16)
  | bgez (rs : RegIdx) (off : BitVec 16)
  | bltzal (rs : RegIdx) (off : BitVec 16)
  | bgezal (rs : RegIdx) (off : BitVec 16)
  -- 45_jump
  | j (index : BitVec 26)
  | jal (index : BitVec 26)
  | jr (rs : RegIdx)
  | jalr (rd rs : RegIdx)
  -- 46_load_store
  | lb (rt rs : RegIdx) (off : BitVec 16)
  | lbu (rt rs : RegIdx) (off : BitVec 16)
  | lh (rt rs : RegIdx) (off : BitVec 16)
  | lhu (rt rs : RegIdx) (off : BitVec 16)
  | lw (rt rs : RegIdx) (off : BitVec 16)
  | lwl (rt rs : RegIdx) (off : BitVec 16)
  | lwr (rt rs : RegIdx) (off : BitVec 16)
  | sb (rt rs : RegIdx) (off : BitVec 16)
  | sh (rt rs : RegIdx) (off : BitVec 16)
  | sw (rt rs : RegIdx) (off : BitVec 16)
deriving DecidableEq, Repr

end Sys2Proof
end

