-- ==== Sys2Proof/WellFormed.lean ====
section
/-! DEFINITION. Well-formed instructions. Every operand field is a bit field that may hold any value (30_encoding R71,
R77), so one check remains: the word that has the instruction's operands and zeros in its unused fields must not be the
zero word, which is no instruction (30_encoding R79). -/

namespace Sys2Proof

/-- The instruction has a word with its unused fields zero. Only `sll $0, $0, 0` has none: that word is 0x00000000,
which halts (30_encoding R79). The instruction itself is reached through a word with a nonzero ignored rs field
(R76, R77) and runs like any SLL (43_shift R150); log entry 6. -/
def Instr.wellFormed : Instr → Bool
  | .sll rd rt sa => !(rd == 0 && rt == 0 && sa == 0)
  | .add _ _ _ | .addu _ _ _ | .sub _ _ _ | .subu _ _ _ | .slt _ _ _ | .sltu _ _ _ => true
  | .and _ _ _ | .or _ _ _ | .xor _ _ _ => true
  | .addi _ _ _ | .addiu _ _ _ | .slti _ _ _ | .sltiu _ _ _ | .lui _ _ => true
  | .andi _ _ _ | .ori _ _ _ | .xori _ _ _ => true
  | .mult _ _ | .multu _ _ | .div _ _ | .divu _ _ | .mfhi _ | .mflo _ | .mthi _ | .mtlo _ => true
  | .srl _ _ _ | .sra _ _ _ | .sllv _ _ _ | .srlv _ _ _ | .srav _ _ _ => true
  | .beq _ _ _ | .bne _ _ _ | .blez _ _ | .bgtz _ _ | .bltz _ _ | .bgez _ _ => true
  | .bltzal _ _ | .bgezal _ _ => true
  | .j _ | .jal _ | .jr _ | .jalr _ _ => true
  | .lb _ _ _ | .lbu _ _ _ | .lh _ _ _ | .lhu _ _ _ | .lw _ _ _ | .lwl _ _ _ | .lwr _ _ _ => true
  | .sb _ _ _ | .sh _ _ _ | .sw _ _ _ => true

end Sys2Proof
end

