-- ==== Sys2Proof/Decode.lean ====
section
/-! DEFINITION. Decoding and encoding: the fields of a word (30_encoding R70, R71), the decode function (R73 to R76), the
big-endian bytes of a word (20_memory R42), the encoder, and spec/opcode_table.json as data. -/

namespace Sys2Proof

/-! ### Fields of an instruction word (30_encoding R71) -/

def opcodeOf (w : Word) : BitVec 6 := w.extractLsb 31 26
def rsOf (w : Word) : RegIdx := w.extractLsb 25 21
def rtOf (w : Word) : RegIdx := w.extractLsb 20 16
def rdOf (w : Word) : RegIdx := w.extractLsb 15 11
def shamtOf (w : Word) : BitVec 5 := w.extractLsb 10 6
def functOf (w : Word) : BitVec 6 := w.extractLsb 5 0
def immOf (w : Word) : BitVec 16 := w.extractLsb 15 0
def indexOf (w : Word) : BitVec 26 := w.extractLsb 25 0

/-! ### Decoding (30_encoding R73 to R76, R79, R80) -/

/-- Why bytes are no instruction of this core. -/
inductive DecodeError where
  /-- 0x00000000, which halts the run and is no instruction (30_encoding R79) -/
  | zeroWord
  /-- a nonzero word that selects no instruction (30_encoding R80) -/
  | unknownEncoding
  /-- fewer than the four bytes of an instruction (30_encoding R82) -/
  | truncated
deriving DecidableEq, Repr

/-- The SPECIAL function-code map (30_encoding R74). -/
def decodeSpecial (w : Word) : Except DecodeError Instr :=
  match functOf w with
  | 0x00#6 => .ok (.sll (rdOf w) (rtOf w) (shamtOf w))
  | 0x02#6 => .ok (.srl (rdOf w) (rtOf w) (shamtOf w))
  | 0x03#6 => .ok (.sra (rdOf w) (rtOf w) (shamtOf w))
  | 0x04#6 => .ok (.sllv (rdOf w) (rtOf w) (rsOf w))
  | 0x06#6 => .ok (.srlv (rdOf w) (rtOf w) (rsOf w))
  | 0x07#6 => .ok (.srav (rdOf w) (rtOf w) (rsOf w))
  | 0x08#6 => .ok (.jr (rsOf w))
  | 0x09#6 => .ok (.jalr (rdOf w) (rsOf w))
  | 0x10#6 => .ok (.mfhi (rdOf w))
  | 0x11#6 => .ok (.mthi (rsOf w))
  | 0x12#6 => .ok (.mflo (rdOf w))
  | 0x13#6 => .ok (.mtlo (rsOf w))
  | 0x18#6 => .ok (.mult (rsOf w) (rtOf w))
  | 0x19#6 => .ok (.multu (rsOf w) (rtOf w))
  | 0x1A#6 => .ok (.div (rsOf w) (rtOf w))
  | 0x1B#6 => .ok (.divu (rsOf w) (rtOf w))
  | 0x20#6 => .ok (.add (rdOf w) (rsOf w) (rtOf w))
  | 0x21#6 => .ok (.addu (rdOf w) (rsOf w) (rtOf w))
  | 0x22#6 => .ok (.sub (rdOf w) (rsOf w) (rtOf w))
  | 0x23#6 => .ok (.subu (rdOf w) (rsOf w) (rtOf w))
  | 0x24#6 => .ok (.and (rdOf w) (rsOf w) (rtOf w))
  | 0x25#6 => .ok (.or (rdOf w) (rsOf w) (rtOf w))
  | 0x26#6 => .ok (.xor (rdOf w) (rsOf w) (rtOf w))
  | 0x2A#6 => .ok (.slt (rdOf w) (rsOf w) (rtOf w))
  | 0x2B#6 => .ok (.sltu (rdOf w) (rsOf w) (rtOf w))
  | _ => .error .unknownEncoding

/-- The B_SPEC discriminator map (30_encoding R75). -/
def decodeBranchSpecial (w : Word) : Except DecodeError Instr :=
  match rtOf w with
  | 0x00#5 => .ok (.bltz (rsOf w) (immOf w))
  | 0x01#5 => .ok (.bgez (rsOf w) (immOf w))
  | 0x10#5 => .ok (.bltzal (rsOf w) (immOf w))
  | 0x11#5 => .ok (.bgezal (rsOf w) (immOf w))
  | _ => .error .unknownEncoding

/-- The decode function on a word that is not zero: the primary opcode map (30_encoding R73, R76). -/
def decodeNonzero (w : Word) : Except DecodeError Instr :=
  match opcodeOf w with
  | 0x00#6 => decodeSpecial w
  | 0x01#6 => decodeBranchSpecial w
  | 0x02#6 => .ok (.j (indexOf w))
  | 0x03#6 => .ok (.jal (indexOf w))
  | 0x04#6 => .ok (.beq (rsOf w) (rtOf w) (immOf w))
  | 0x05#6 => .ok (.bne (rsOf w) (rtOf w) (immOf w))
  | 0x06#6 => .ok (.blez (rsOf w) (immOf w))
  | 0x07#6 => .ok (.bgtz (rsOf w) (immOf w))
  | 0x08#6 => .ok (.addi (rtOf w) (rsOf w) (immOf w))
  | 0x09#6 => .ok (.addiu (rtOf w) (rsOf w) (immOf w))
  | 0x0A#6 => .ok (.slti (rtOf w) (rsOf w) (immOf w))
  | 0x0B#6 => .ok (.sltiu (rtOf w) (rsOf w) (immOf w))
  | 0x0C#6 => .ok (.andi (rtOf w) (rsOf w) (immOf w))
  | 0x0D#6 => .ok (.ori (rtOf w) (rsOf w) (immOf w))
  | 0x0E#6 => .ok (.xori (rtOf w) (rsOf w) (immOf w))
  | 0x0F#6 => .ok (.lui (rtOf w) (immOf w))
  | 0x20#6 => .ok (.lb (rtOf w) (rsOf w) (immOf w))
  | 0x21#6 => .ok (.lh (rtOf w) (rsOf w) (immOf w))
  | 0x22#6 => .ok (.lwl (rtOf w) (rsOf w) (immOf w))
  | 0x23#6 => .ok (.lw (rtOf w) (rsOf w) (immOf w))
  | 0x24#6 => .ok (.lbu (rtOf w) (rsOf w) (immOf w))
  | 0x25#6 => .ok (.lhu (rtOf w) (rsOf w) (immOf w))
  | 0x26#6 => .ok (.lwr (rtOf w) (rsOf w) (immOf w))
  | 0x28#6 => .ok (.sb (rtOf w) (rsOf w) (immOf w))
  | 0x29#6 => .ok (.sh (rtOf w) (rsOf w) (immOf w))
  | 0x2B#6 => .ok (.sw (rtOf w) (rsOf w) (immOf w))
  | _ => .error .unknownEncoding

/-- Every word is the zero word, an instruction, or unknown (30_encoding R81). -/
def decodeWord (w : Word) : Except DecodeError Instr :=
  if w = 0 then .error .zeroWord else decodeNonzero w

/-! ### Bytes (20_memory R42) -/

/-- Two bytes as a halfword, the byte at the lower address first. -/
def halfOfBytes (b0 b1 : Byte) : BitVec 16 := b0 ++ b1

/-- Four bytes as a word, the byte at the lowest address in bits 31:24. -/
def wordOfBytes (b0 b1 b2 b3 : Byte) : Word := b0 ++ b1 ++ b2 ++ b3

/-- The bytes of a word in memory order. -/
def bytesOfWord (w : Word) : List Byte :=
  [w.extractLsb 31 24, w.extractLsb 23 16, w.extractLsb 15 8, w.extractLsb 7 0]

/-- The instruction at the front of a list of bytes, and the bytes after it. -/
def decodeBytes : List Byte → Except DecodeError (Instr × List Byte)
  | b0 :: b1 :: b2 :: b3 :: rest =>
    match decodeWord (wordOfBytes b0 b1 b2 b3) with
    | .ok i => .ok (i, rest)
    | .error e => .error e
  | _ => .error .truncated

/-- The word of an opcode-table row of `nbits` bits whose bits are `w`, the bits above `nbits` zero. -/
def tableWord (nbits w : Nat) : Word := BitVec.ofNat 32 (w % 2 ^ nbits)

/-- The instruction the decoder reads from the bits of an opcode-table row: its word is laid out in memory order and
given to the decoder. Every instruction is one 32-bit word (30_encoding R82). -/
def decodeTableWord (nbits w : Nat) : Option Instr :=
  match decodeBytes (bytesOfWord (tableWord nbits w)) with
  | .ok (i, _) => some i
  | .error _ => none

/-! ### Encoding (30_encoding R70, R73 to R75), unused fields zero (log entry 6) -/

def encodeR (rs rt : RegIdx) (rd : RegIdx) (shamt : BitVec 5) (funct : BitVec 6) : Word :=
  0x00#6 ++ rs ++ rt ++ rd ++ shamt ++ funct

def encodeI (opcode : BitVec 6) (rs rt : RegIdx) (imm : BitVec 16) : Word :=
  opcode ++ rs ++ rt ++ imm

def encodeB (rs : RegIdx) (discriminator : BitVec 5) (imm : BitVec 16) : Word :=
  0x01#6 ++ rs ++ discriminator ++ imm

def encodeJ (opcode : BitVec 6) (index : BitVec 26) : Word :=
  opcode ++ index

/-- The word of an instruction. -/
def encode : Instr → Word
  | .sll rd rt sa => encodeR 0 rt rd sa 0x00
  | .srl rd rt sa => encodeR 0 rt rd sa 0x02
  | .sra rd rt sa => encodeR 0 rt rd sa 0x03
  | .sllv rd rt rs => encodeR rs rt rd 0 0x04
  | .srlv rd rt rs => encodeR rs rt rd 0 0x06
  | .srav rd rt rs => encodeR rs rt rd 0 0x07
  | .jr rs => encodeR rs 0 0 0 0x08
  | .jalr rd rs => encodeR rs 0 rd 0 0x09
  | .mfhi rd => encodeR 0 0 rd 0 0x10
  | .mthi rs => encodeR rs 0 0 0 0x11
  | .mflo rd => encodeR 0 0 rd 0 0x12
  | .mtlo rs => encodeR rs 0 0 0 0x13
  | .mult rs rt => encodeR rs rt 0 0 0x18
  | .multu rs rt => encodeR rs rt 0 0 0x19
  | .div rs rt => encodeR rs rt 0 0 0x1A
  | .divu rs rt => encodeR rs rt 0 0 0x1B
  | .add rd rs rt => encodeR rs rt rd 0 0x20
  | .addu rd rs rt => encodeR rs rt rd 0 0x21
  | .sub rd rs rt => encodeR rs rt rd 0 0x22
  | .subu rd rs rt => encodeR rs rt rd 0 0x23
  | .and rd rs rt => encodeR rs rt rd 0 0x24
  | .or rd rs rt => encodeR rs rt rd 0 0x25
  | .xor rd rs rt => encodeR rs rt rd 0 0x26
  | .slt rd rs rt => encodeR rs rt rd 0 0x2A
  | .sltu rd rs rt => encodeR rs rt rd 0 0x2B
  | .bltz rs off => encodeB rs 0x00 off
  | .bgez rs off => encodeB rs 0x01 off
  | .bltzal rs off => encodeB rs 0x10 off
  | .bgezal rs off => encodeB rs 0x11 off
  | .j index => encodeJ 0x02 index
  | .jal index => encodeJ 0x03 index
  | .beq rs rt off => encodeI 0x04 rs rt off
  | .bne rs rt off => encodeI 0x05 rs rt off
  | .blez rs off => encodeI 0x06 rs 0 off
  | .bgtz rs off => encodeI 0x07 rs 0 off
  | .addi rt rs imm => encodeI 0x08 rs rt imm
  | .addiu rt rs imm => encodeI 0x09 rs rt imm
  | .slti rt rs imm => encodeI 0x0A rs rt imm
  | .sltiu rt rs imm => encodeI 0x0B rs rt imm
  | .andi rt rs imm => encodeI 0x0C rs rt imm
  | .ori rt rs imm => encodeI 0x0D rs rt imm
  | .xori rt rs imm => encodeI 0x0E rs rt imm
  | .lui rt imm => encodeI 0x0F 0 rt imm
  | .lb rt rs off => encodeI 0x20 rs rt off
  | .lh rt rs off => encodeI 0x21 rs rt off
  | .lwl rt rs off => encodeI 0x22 rs rt off
  | .lw rt rs off => encodeI 0x23 rs rt off
  | .lbu rt rs off => encodeI 0x24 rs rt off
  | .lhu rt rs off => encodeI 0x25 rs rt off
  | .lwr rt rs off => encodeI 0x26 rs rt off
  | .sb rt rs off => encodeI 0x28 rs rt off
  | .sh rt rs off => encodeI 0x29 rs rt off
  | .sw rt rs off => encodeI 0x2B rs rt off

/-- An instruction's bytes in memory order. -/
def encodeBytes (i : Instr) : List Byte := bytesOfWord (encode i)

/-! ### spec/opcode_table.json as data

The decoder does not use it: a claim says that the two agree. -/

/-- A row of spec/opcode_table.json: its name, the bits that select it, and their values. -/
structure OpcodeRow where
  mnemonic : String
  mask : Word
  pattern : Word
deriving DecidableEq, Repr

/-- The word is one of the row's words. -/
def OpcodeRow.hasWord (r : OpcodeRow) (w : Word) : Bool := w &&& r.mask == r.pattern

/-- The row of spec/opcode_table.json that an instruction stands for. -/
def Instr.row : Instr → OpcodeRow
  | .add _ _ _ => ⟨"ADD", 0xFC00003F, 0x00000020⟩
  | .addu _ _ _ => ⟨"ADDU", 0xFC00003F, 0x00000021⟩
  | .sub _ _ _ => ⟨"SUB", 0xFC00003F, 0x00000022⟩
  | .subu _ _ _ => ⟨"SUBU", 0xFC00003F, 0x00000023⟩
  | .addi _ _ _ => ⟨"ADDI", 0xFC000000, 0x20000000⟩
  | .addiu _ _ _ => ⟨"ADDIU", 0xFC000000, 0x24000000⟩
  | .slt _ _ _ => ⟨"SLT", 0xFC00003F, 0x0000002A⟩
  | .sltu _ _ _ => ⟨"SLTU", 0xFC00003F, 0x0000002B⟩
  | .slti _ _ _ => ⟨"SLTI", 0xFC000000, 0x28000000⟩
  | .sltiu _ _ _ => ⟨"SLTIU", 0xFC000000, 0x2C000000⟩
  | .lui _ _ => ⟨"LUI", 0xFC000000, 0x3C000000⟩
  | .and _ _ _ => ⟨"AND", 0xFC00003F, 0x00000024⟩
  | .or _ _ _ => ⟨"OR", 0xFC00003F, 0x00000025⟩
  | .xor _ _ _ => ⟨"XOR", 0xFC00003F, 0x00000026⟩
  | .andi _ _ _ => ⟨"ANDI", 0xFC000000, 0x30000000⟩
  | .ori _ _ _ => ⟨"ORI", 0xFC000000, 0x34000000⟩
  | .xori _ _ _ => ⟨"XORI", 0xFC000000, 0x38000000⟩
  | .mult _ _ => ⟨"MULT", 0xFC00003F, 0x00000018⟩
  | .multu _ _ => ⟨"MULTU", 0xFC00003F, 0x00000019⟩
  | .div _ _ => ⟨"DIV", 0xFC00003F, 0x0000001A⟩
  | .divu _ _ => ⟨"DIVU", 0xFC00003F, 0x0000001B⟩
  | .mfhi _ => ⟨"MFHI", 0xFC00003F, 0x00000010⟩
  | .mflo _ => ⟨"MFLO", 0xFC00003F, 0x00000012⟩
  | .mthi _ => ⟨"MTHI", 0xFC00003F, 0x00000011⟩
  | .mtlo _ => ⟨"MTLO", 0xFC00003F, 0x00000013⟩
  | .sll _ _ _ => ⟨"SLL", 0xFC00003F, 0x00000000⟩
  | .srl _ _ _ => ⟨"SRL", 0xFC00003F, 0x00000002⟩
  | .sra _ _ _ => ⟨"SRA", 0xFC00003F, 0x00000003⟩
  | .sllv _ _ _ => ⟨"SLLV", 0xFC00003F, 0x00000004⟩
  | .srlv _ _ _ => ⟨"SRLV", 0xFC00003F, 0x00000006⟩
  | .srav _ _ _ => ⟨"SRAV", 0xFC00003F, 0x00000007⟩
  | .beq _ _ _ => ⟨"BEQ", 0xFC000000, 0x10000000⟩
  | .bne _ _ _ => ⟨"BNE", 0xFC000000, 0x14000000⟩
  | .blez _ _ => ⟨"BLEZ", 0xFC000000, 0x18000000⟩
  | .bgtz _ _ => ⟨"BGTZ", 0xFC000000, 0x1C000000⟩
  | .bltz _ _ => ⟨"BLTZ", 0xFC1F0000, 0x04000000⟩
  | .bgez _ _ => ⟨"BGEZ", 0xFC1F0000, 0x04010000⟩
  | .bltzal _ _ => ⟨"BLTZAL", 0xFC1F0000, 0x04100000⟩
  | .bgezal _ _ => ⟨"BGEZAL", 0xFC1F0000, 0x04110000⟩
  | .j _ => ⟨"J", 0xFC000000, 0x08000000⟩
  | .jal _ => ⟨"JAL", 0xFC000000, 0x0C000000⟩
  | .jr _ => ⟨"JR", 0xFC00003F, 0x00000008⟩
  | .jalr _ _ => ⟨"JALR", 0xFC00003F, 0x00000009⟩
  | .lb _ _ _ => ⟨"LB", 0xFC000000, 0x80000000⟩
  | .lbu _ _ _ => ⟨"LBU", 0xFC000000, 0x90000000⟩
  | .lh _ _ _ => ⟨"LH", 0xFC000000, 0x84000000⟩
  | .lhu _ _ _ => ⟨"LHU", 0xFC000000, 0x94000000⟩
  | .lw _ _ _ => ⟨"LW", 0xFC000000, 0x8C000000⟩
  | .lwl _ _ _ => ⟨"LWL", 0xFC000000, 0x88000000⟩
  | .lwr _ _ _ => ⟨"LWR", 0xFC000000, 0x98000000⟩
  | .sb _ _ _ => ⟨"SB", 0xFC000000, 0xA0000000⟩
  | .sh _ _ _ => ⟨"SH", 0xFC000000, 0xA4000000⟩
  | .sw _ _ _ => ⟨"SW", 0xFC000000, 0xAC000000⟩

/-- One instruction of each row, in the table's order. -/
def tableInstrs : List Instr :=
  [.add 0 0 0, .addu 0 0 0, .sub 0 0 0, .subu 0 0 0, .addi 0 0 0, .addiu 0 0 0, .slt 0 0 0, .sltu 0 0 0, .slti 0 0 0] ++
  [.sltiu 0 0 0, .lui 0 0, .and 0 0 0, .or 0 0 0, .xor 0 0 0, .andi 0 0 0, .ori 0 0 0, .xori 0 0 0, .mult 0 0] ++
  [.multu 0 0, .div 0 0, .divu 0 0, .mfhi 0, .mflo 0, .mthi 0, .mtlo 0, .sll 0 0 0, .srl 0 0 0] ++
  [.sra 0 0 0, .sllv 0 0 0, .srlv 0 0 0, .srav 0 0 0, .beq 0 0 0, .bne 0 0 0, .blez 0 0, .bgtz 0 0, .bltz 0 0] ++
  [.bgez 0 0, .bltzal 0 0, .bgezal 0 0, .j 0, .jal 0, .jr 0, .jalr 0 0, .lb 0 0 0, .lbu 0 0 0] ++
  [.lh 0 0 0, .lhu 0 0 0, .lw 0 0 0, .lwl 0 0 0, .lwr 0 0 0, .sb 0 0 0, .sh 0 0 0, .sw 0 0 0]

/-- spec/opcode_table.json. -/
def opcodeTable : List OpcodeRow := tableInstrs.map Instr.row

/-- Every bit the decoder reads of an instruction's word: those that select it and those of the operand fields of its
row in spec/opcode_table.json (30_encoding R77). -/
def Instr.usedMask : Instr → Word
  | .add _ _ _ | .addu _ _ _ | .sub _ _ _ | .subu _ _ _ | .slt _ _ _ | .sltu _ _ _ | .and _ _ _ | .or _ _ _ | .xor _ _ _ | .sllv _ _ _ | .srlv _ _ _ | .srav _ _ _ => 0xFFFFF83F
  | .addi _ _ _ | .addiu _ _ _ | .slti _ _ _ | .sltiu _ _ _ | .andi _ _ _ | .ori _ _ _ | .xori _ _ _ | .beq _ _ _ | .bne _ _ _ | .bltz _ _ | .bgez _ _ | .bltzal _ _ | .bgezal _ _ | .j _ | .jal _ | .lb _ _ _ | .lbu _ _ _ | .lh _ _ _ | .lhu _ _ _ | .lw _ _ _ | .lwl _ _ _ | .lwr _ _ _ | .sb _ _ _ | .sh _ _ _ | .sw _ _ _ => 0xFFFFFFFF
  | .lui _ _ | .sll _ _ _ | .srl _ _ _ | .sra _ _ _ => 0xFC1FFFFF
  | .mult _ _ | .multu _ _ | .div _ _ | .divu _ _ => 0xFFFF003F
  | .mfhi _ | .mflo _ => 0xFC00F83F
  | .mthi _ | .mtlo _ | .jr _ => 0xFFE0003F
  | .blez _ _ | .bgtz _ _ => 0xFFE0FFFF
  | .jalr _ _ => 0xFFE0F83F

end Sys2Proof
end

