-- ==== Sys2Proof/Config.lean ====
section
/-! DEFINITION. What is fixed for one machine: the address map's constants (00_scope R7, 20_memory R40), the open
parameters of 00_scope R8 with their defaults, and the two functions the spec leaves uninterpreted
(46_load_store R196, R197). -/

namespace Sys2Proof

/-- First address of the instruction segment, and the reset pc (00_scope R7). -/
def Config.imemBase : Nat := 0x10000000
/-- 16 MiB (00_scope R7). -/
def Config.imemSize : Nat := 0x01000000
/-- First address of the data segment (00_scope R7). -/
def Config.dmemBase : Nat := 0x20000000
/-- 64 MiB (00_scope R7). -/
def Config.dmemSize : Nat := 0x04000000
/-- The input port (00_scope R7, 20_memory R49). -/
def Config.getcAddr : Word := 0x30000000
/-- The output port (00_scope R7, 20_memory R50). -/
def Config.putcAddr : Word := 0x30000004
/-- The reset vector (00_scope R7, 70 R251). -/
def Config.resetPc : Word := 0x10000000

/-- UNKNOWN_ENCODING (00_scope R8, 30_encoding R80, D2). -/
inductive UnknownPolicy where
  | nop
  | invalidInstruction
deriving DecidableEq, Repr

/-- LWLR_MODE (00_scope R8, 46_load_store R196, D20). `uninterpreted` is the spec's `opaque`. -/
inductive LwlrMode where
  | mips1
  | uninterpreted
deriving DecidableEq, Repr

/-- The open parameters of 00_scope R8 that are not a run's input (IMAGE and INPUT are arguments of the loader),
each with the spec's default. DESIGN CHOICE, log entry 1 (safe): they are data that the state carries and no step
changes, so that a claim covers every setting. -/
structure Params where
  /-- R0_HARDWIRED (D1) -/
  r0Hardwired : Bool := true
  /-- UNKNOWN_ENCODING (D2) -/
  unknownEncoding : UnknownPolicy := .nop
  /-- EXIT_ARITHMETIC (D5) -/
  exitArithmetic : Byte := 0xF6
  /-- EXIT_MEMORY (D5) -/
  exitMemory : Byte := 0xF5
  /-- EXIT_INVALID (D5) -/
  exitInvalid : Byte := 0xF4
  /-- EXIT_INTERNAL (D5) -/
  exitInternal : Byte := 0xEC
  /-- GETC_EOF (D13) -/
  getcEof : Word := 0xFFFFFFFF
  /-- the HI half of DIV_OVERFLOW_RESULT (D17) -/
  divOverflowHi : Word := 0x00000000
  /-- the LO half of DIV_OVERFLOW_RESULT (D17) -/
  divOverflowLo : Word := 0x80000000
  /-- LWLR_MODE (D20) -/
  lwlrMode : LwlrMode := .mips1
deriving DecidableEq, Repr

/-- The parameters at the defaults of 00_scope R8. -/
def Params.defaults : Params := {}

/-- What the spec asks of the parameters: the exit statuses are distinct and nonzero (00_scope R8), and the
end-of-input sentinel is negative as a word (93 I6). -/
def Params.wf (p : Params) : Bool :=
  decide ([p.exitArithmetic, p.exitMemory, p.exitInvalid, p.exitInternal].Nodup)
    && decide (p.exitArithmetic ≠ 0) && decide (p.exitMemory ≠ 0)
    && decide (p.exitInvalid ≠ 0) && decide (p.exitInternal ≠ 0)
    && p.getcEof.msb

/-- LWL_F (46_load_store R196): under LWLR_MODE = opaque the result of LWL is an uninterpreted function of
(W, old, k). A free value: no body, log entry 7 (safe). -/
opaque Config.lwlF : Word → Word → BitVec 2 → Word

/-- LWR_F (46_load_store R197), free in the same way. -/
opaque Config.lwrF : Word → Word → BitVec 2 → Word

end Sys2Proof
end

