-- ==== Sys2Proof/Machine/State.lean ====
section
/-! DEFINITION. The machine's state (10_state), the reasons a step stops, and the state after reset (10_state R32). -/

namespace Sys2Proof.Machine

/-- Bytes of a memory segment: (address, byte) pairs, the addresses strictly rising and no byte zero, since an unlisted
address reads as zero (10_state R32, D34). The address is the whole 32-bit address as a number; log entry 4 (safe). -/
abbrev Memory := List Host.Cell

/-- What an unlisted address reads as: memory is zero-initialised (10_state R30, R32; D34). -/
def Memory.unlisted : Byte := 0

/-- The canonical form, with every address in `[lo, hi)`. -/
def Memory.wfFrom (lo hi : Nat) : Memory → Bool
  | [] => true
  | (a, b) :: m => decide (lo ≤ a) && decide (a < hi) && decide (b ≠ Memory.unlisted) && Memory.wfFrom (a + 1) hi m

/-- The canonical form of a memory of the 32-bit address space. -/
def Memory.wf (m : Memory) : Bool := Memory.wfFrom 0 (2 ^ 32) m

/-- The kinds of terminal fault (10_state R28, 60 R220). -/
inductive FaultKind where
  | arithmeticOverflow
  | memoryFault (addr : Word)
  | invalidInstruction
  | internalError
deriving DecidableEq, Repr

/-- The run status (10_state R28). -/
inductive RunStatus where
  | running
  | halted (code : Byte)
  | faulted (kind : FaultKind) (code : Byte)
deriving DecidableEq, Repr

/-- Why the model stops without a next state. The core's own faults are no reason to stop: each is a next state whose
status is Faulted (40_engine R102); log entry 2. -/
inductive Fault where
  /-- Raised by `step` alone, on a state whose status is Halted or Faulted: "Only `Running` steps" (10_state R28,
  60 R225). DEDUCED, log entry 3. Safe: no next state is claimed. -/
  | runEnded
deriving DecidableEq, Repr

/-- Why an instruction has no meaning in the model. -/
inductive Refusal where
  /-- Raised by an arm of `exec` whose instruction has no meaning yet; none is left. Safe: no next state is claimed. -/
  | notModelled (mnemonic : String)
deriving DecidableEq, Repr

/-- The machine state of 10_state. The last field is the model's own: the parameters of 00_scope R8 (log entry 1). -/
structure State where
  /-- `x[0]` to `x[31]` (R20) -/
  regs : Vector Word 32
  /-- HI (R23) -/
  hi : Word
  /-- LO (R23) -/
  lo : Word
  /-- the address of the instruction this step executes (R24) -/
  pc : Word
  /-- the address of the instruction that executes after it (R24) -/
  npc : Word
  /-- the instruction segment (R30) -/
  imem : Memory
  /-- the data segment (R30) -/
  dmem : Memory
  /-- the input bytes not yet consumed (R29) -/
  input : List Byte
  /-- the bytes emitted so far, the oldest first (R29) -/
  output : List Byte
  /-- the run status (R28) -/
  status : RunStatus
  /-- the open parameters, which no step changes (00_scope R8) -/
  params : Params
deriving DecidableEq, Repr

/-- What one step or one instruction answers. -/
abbrev StepResult := Host.Outcome State Fault Refusal

/-- The state after reset (10_state R32, 70 R250), with the parameters at their defaults, an empty IMAGE and an empty
INPUT (log entry 5). `State.boot` is the load of any image and input. -/
def State.reset : State where
  regs := Vector.replicate 32 0x00000000
  hi := 0x00000000
  lo := 0x00000000
  pc := 0x10000000
  npc := 0x10000004
  imem := []
  dmem := []
  input := []
  output := []
  status := .running
  params := Params.defaults

end Sys2Proof.Machine
end

