-- ==== Sys2Proof/Machine/Ops.lean ====
section
/-! DEFINITION. The named operations over registers, memory, ports, the pc pair and the status: 10_state R21, 20_memory
R41 to R50, 40_engine R96, R97, R102. -/

namespace Sys2Proof.Machine

/-! ### Registers (10_state R20 to R22) -/

/-- Register 0 discards writes and reads as zero when R0_HARDWIRED is true (10_state R21). -/
def State.isHardwired (s : State) (i : RegIdx) : Bool := s.params.r0Hardwired && i == 0

/-- `x[i]`, read (10_state R21). With R0_HARDWIRED register 0 reads as zero whatever is stored (log entry 8). -/
def State.readReg (s : State) (i : RegIdx) : Word :=
  if s.isHardwired i then 0 else s.regs[i.toNat]'i.isLt

/-- `x[i] <- v` (10_state R21). -/
def State.writeReg (s : State) (i : RegIdx) (v : Word) : State :=
  if s.isHardwired i then s else { s with regs := s.regs.set i.toNat v i.isLt }

/-- `hi <- h; lo <- l` (10_state R23). -/
def State.writeHiLo (s : State) (h l : Word) : State := { s with hi := h, lo := l }

/-- `hi <- h`. -/
def State.writeHi (s : State) (h : Word) : State := { s with hi := h }

/-- `lo <- l`. -/
def State.writeLo (s : State) (l : Word) : State := { s with lo := l }

/-! ### The pc pair (40_engine R96, R97) -/

/-- A `Seq` outcome: the sequential advance (40_engine R96). -/
def State.seq (s : State) : State := { s with pc := s.npc, npc := s.npc + 4 }

/-- A `Redirect(t)` outcome: the document's `setPC` (40_engine R97). The target is not checked. -/
def State.redirect (s : State) (t : Word) : State := { s with pc := s.npc, npc := t }

/-! ### Ends of a run (00_scope R14, 40_engine R93, R102, 60 R220) -/

/-- The exit status of each kind of fault (60 R220). -/
def Params.exitCode (p : Params) : FaultKind → Byte
  | .arithmeticOverflow => p.exitArithmetic
  | .memoryFault _ => p.exitMemory
  | .invalidInstruction => p.exitInvalid
  | .internalError => p.exitInternal

/-- Taking a fault, the core's only exception: the status becomes Faulted and nothing else changes (40_engine R102).
It is terminal, with no handler and no return (60 R224, R225). -/
def State.raise (s : State) (k : FaultKind) : State :=
  { s with status := .faulted k (Params.exitCode s.params k) }

/-- The low byte of register 2 (40_engine R93). -/
def State.haltCode (s : State) : Byte := (s.readReg 2).extractLsb 7 0

/-- A normal halt (40_engine R91, R93, R94). -/
def State.halt (s : State) : State := { s with status := .halted s.haltCode }

/-! ### Bytes of memory -/

/-- One byte; an unlisted address reads as zero (10_state R32). -/
def Memory.read : Memory → Nat → Byte
  | [], _ => Memory.unlisted
  | (k, v) :: m, a => if a = k then v else Memory.read m a

/-- A byte in front of a memory, left out when it is what an unlisted address reads as. -/
def Memory.consByte (a : Nat) (b : Byte) (m : Memory) : Memory :=
  if b = Memory.unlisted then m else (a, b) :: m

/-- Writes one byte, keeping the canonical form. -/
def Memory.write : Memory → Nat → Byte → Memory
  | [], a, b => Memory.consByte a b []
  | (k, v) :: m, a, b =>
    if a < k then Memory.consByte a b ((k, v) :: m)
    else if a = k then Memory.consByte a b m
    else (k, v) :: Memory.write m a b

/-! ### Regions, alignment, widths (20_memory R40, R41, R43, R52) -/

/-- The regions of the address map (20_memory R40). -/
inductive Region where
  | imem
  | dmem
  | getc
  | putc
  | unmapped
deriving DecidableEq, Repr

/-- The region of an address (20_memory R41). -/
def region (a : Word) : Region :=
  if 0x10000000 ≤ a.toNat ∧ a.toNat ≤ 0x10FFFFFF then .imem
  else if 0x20000000 ≤ a.toNat ∧ a.toNat ≤ 0x23FFFFFF then .dmem
  else if 0x30000000 ≤ a.toNat ∧ a.toNat ≤ 0x30000003 then .getc
  else if 0x30000004 ≤ a.toNat ∧ a.toNat ≤ 0x30000007 then .putc
  else .unmapped

/-- The widths of a data access (20_memory R52). -/
inductive AccessWidth where
  | byte
  | half
  | word
deriving DecidableEq, Repr

/-- The width in bytes. -/
def AccessWidth.bytes : AccessWidth → Nat
  | .byte => 1
  | .half => 2
  | .word => 4

/-- `aligned(a, n)` (20_memory R43). -/
def aligned (a : Word) : AccessWidth → Bool
  | .byte => true
  | .half => a.extractLsb 0 0 == 0#1
  | .word => a.extractLsb 1 0 == 0#2

/-- The big-endian value of the bytes at an address, as an unsigned word (20_memory R42, R45). -/
def Memory.readBE (m : Memory) (a : Nat) : AccessWidth → Word
  | .byte => (Memory.read m a).setWidth 32
  | .half => (halfOfBytes (Memory.read m a) (Memory.read m (a + 1))).setWidth 32
  | .word =>
    wordOfBytes (Memory.read m a) (Memory.read m (a + 1)) (Memory.read m (a + 2)) (Memory.read m (a + 3))

/-- Writes the low bytes of a word in big-endian order (20_memory R42, R46). -/
def Memory.writeBE (m : Memory) (a : Nat) (v : Word) : AccessWidth → Memory
  | .byte => Memory.write m a (v.extractLsb 7 0)
  | .half => Memory.write (Memory.write m a (v.extractLsb 15 8)) (a + 1) (v.extractLsb 7 0)
  | .word =>
    Memory.write
      (Memory.write (Memory.write (Memory.write m a (v.extractLsb 31 24)) (a + 1) (v.extractLsb 23 16))
        (a + 2) (v.extractLsb 15 8))
      (a + 3) (v.extractLsb 7 0)

/-- The low bytes of a word as an unsigned word of that width. -/
def truncateTo (v : Word) : AccessWidth → Word
  | .byte => (v.extractLsb 7 0).setWidth 32
  | .half => (v.extractLsb 15 0).setWidth 32
  | .word => v

/-! ### The ports (20_memory R49, R50) -/

/-- What a read of the input port gives (20_memory R49). -/
def State.getcValue (s : State) : Word :=
  match s.input with
  | [] => s.params.getcEof
  | c :: _ => c.setWidth 32

/-- The input after a read of the input port: one byte shorter, or still empty (20_memory R49). -/
def State.getcConsume (s : State) : State := { s with input := s.input.tail }

/-- `PutcWrite(b)` (20_memory R50). -/
def State.putcEmit (s : State) (b : Byte) : State := { s with output := s.output ++ [b] }

/-! ### The access primitives (20_memory R44 to R46, R48) -/

/-- `MemRead(a, n)`: the value and the state after the read, or nothing where it raises MemoryFault(a)
(20_memory R44, R45). -/
def memRead (s : State) (a : Word) (n : AccessWidth) : Option (Word × State) :=
  if !aligned a n then none
  else match region a with
    | .dmem => some (Memory.readBE s.dmem a.toNat n, s)
    | .getc => if a = Config.getcAddr ∧ n ≠ .half then some (truncateTo s.getcValue n, s.getcConsume) else none
    | .imem | .putc | .unmapped => none

/-- `MemWrite(a, n, v)`: the state after the write, or nothing where it raises MemoryFault(a) (20_memory R44, R46). -/
def memWrite (s : State) (a : Word) (n : AccessWidth) (v : Word) : Option State :=
  if !aligned a n then none
  else match region a with
    | .dmem => some { s with dmem := Memory.writeBE s.dmem a.toNat v n }
    | .putc => if a = Config.putcAddr ∧ n ≠ .half then some (s.putcEmit (v.extractLsb 7 0)) else none
    | .imem | .getc | .unmapped => none

/-- `Fetch(a)`, or nothing where it raises MemoryFault(a) (20_memory R48). -/
def fetch (s : State) (a : Word) : Option Word :=
  if aligned a .word ∧ region a = .imem then some (Memory.readBE s.imem a.toNat .word) else none

/-! ### How an instruction ends (40_engine R90) -/

/-- `x[d] <- v`, then `Seq`. -/
def State.finishReg (s : State) (d : RegIdx) (v : Word) : StepResult := .next (s.writeReg d v).seq

/-- A raised fault. -/
def State.finishFault (s : State) (k : FaultKind) : StepResult := .next (s.raise k)

end Sys2Proof.Machine
end

