-- ==== Sys2Proof/Machine/Operands.lean ====
section
/-! DEFINITION. Every operand form: the immediates of 30_encoding R72, the effective address of 46_load_store R190, the
branch and jump targets and the link value (40_engine R99, 44_branch R160, 45_jump R180), the shift amounts
(43_shift R150, R153). -/

namespace Sys2Proof.Machine

/-- `sext_8(v)` of a word (00_scope R11). -/
def sext8 (v : Word) : Word := (v.extractLsb 7 0).signExtend 32
/-- `zext_8(v)` of a word (00_scope R11). -/
def zext8 (v : Word) : Word := (v.extractLsb 7 0).setWidth 32
/-- `sext_16(v)` of a word (00_scope R11). -/
def sext16 (v : Word) : Word := (v.extractLsb 15 0).signExtend 32
/-- `zext_16(v)` of a word (00_scope R11). -/
def zext16 (v : Word) : Word := (v.extractLsb 15 0).setWidth 32

/-- `simm` (30_encoding R72). -/
def simm (imm : BitVec 16) : Word := imm.signExtend 32
/-- `zimm` (30_encoding R72). -/
def zimm (imm : BitVec 16) : Word := imm.setWidth 32
/-- `boff` (30_encoding R72). -/
def boff (imm : BitVec 16) : Word := simm imm <<< 2
/-- `luimm` (30_encoding R72, 41_arithmetic R121). -/
def luimm (imm : BitVec 16) : Word := imm ++ 0#16

/-- `ea = x[rs] + sext_16(imm16)`, modulo 2^32 (46_load_store R190). -/
def effAddr (s : State) (rs : RegIdx) (off : BitVec 16) : Word := s.readReg rs + simm off

/-- The target of a branch: `npc + boff` (44_branch R160, 40_engine R99). -/
def branchTarget (s : State) (off : BitVec 16) : Word := s.npc + boff off

/-- The target of J and JAL: `pc[31:28] || instr_index || 0b00`, with the jump's own pc (45_jump R180, D23). -/
def jumpTarget (s : State) (index : BitVec 26) : Word := (s.pc.extractLsb 31 28 : BitVec 4) ++ index ++ 0#2

/-- The delayed return address, `npc + 4` (40_engine R99). -/
def linkValue (s : State) : Word := s.npc + 4

/-- The amount of a variable shift: the low 5 bits of register S (43_shift R153). -/
def shiftAmount (v : Word) : BitVec 5 := v.extractLsb 4 0

/-- The word that contains an address: `ea & 0xFFFFFFFC` (46_load_store R196). -/
def alignedWord (ea : Word) : Word := ea &&& 0xFFFFFFFC

/-- The byte offset in that word: `ea[1:0]` (46_load_store R196). -/
def byteOffset (ea : Word) : BitVec 2 := ea.extractLsb 1 0

end Sys2Proof.Machine
end

