-- ==== Sys2Proof/Machine/Arithmetic.lean ====
section
/-! DEFINITION. The instructions of 41_arithmetic: add and subtract, set on less than, LUI, logic. -/

namespace Sys2Proof.Machine

/-- Add with overflow check: ArithmeticOverflow before anything is written, or the sum (41_arithmetic R110). -/
def addChecked (d : RegIdx) (a b : Word) (s : State) : StepResult :=
  if addOverflows a b then s.finishFault .arithmeticOverflow else s.finishReg d (a + b)

/-- Subtract with overflow check (41_arithmetic R110). -/
def subChecked (d : RegIdx) (a b : Word) (s : State) : StepResult :=
  if subOverflows a b then s.finishFault .arithmeticOverflow else s.finishReg d (a - b)

/-- 41_arithmetic R111 -/
def execAdd (rd rs rt : RegIdx) (s : State) : StepResult := addChecked rd (s.readReg rs) (s.readReg rt) s

/-- 41_arithmetic R112 -/
def execAddu (rd rs rt : RegIdx) (s : State) : StepResult := s.finishReg rd (s.readReg rs + s.readReg rt)

/-- 41_arithmetic R113 -/
def execSub (rd rs rt : RegIdx) (s : State) : StepResult := subChecked rd (s.readReg rs) (s.readReg rt) s

/-- 41_arithmetic R114 -/
def execSubu (rd rs rt : RegIdx) (s : State) : StepResult := s.finishReg rd (s.readReg rs - s.readReg rt)

/-- 41_arithmetic R115 -/
def execAddi (rt rs : RegIdx) (imm : BitVec 16) (s : State) : StepResult := addChecked rt (s.readReg rs) (simm imm) s

/-- 41_arithmetic R116 -/
def execAddiu (rt rs : RegIdx) (imm : BitVec 16) (s : State) : StepResult := s.finishReg rt (s.readReg rs + simm imm)

/-- 41_arithmetic R117 -/
def execSlt (rd rs rt : RegIdx) (s : State) : StepResult :=
  s.finishReg rd (boolWord (lessSigned (s.readReg rs) (s.readReg rt)))

/-- 41_arithmetic R118 -/
def execSltu (rd rs rt : RegIdx) (s : State) : StepResult :=
  s.finishReg rd (boolWord (lessUnsigned (s.readReg rs) (s.readReg rt)))

/-- 41_arithmetic R119 -/
def execSlti (rt rs : RegIdx) (imm : BitVec 16) (s : State) : StepResult :=
  s.finishReg rt (boolWord (lessSigned (s.readReg rs) (simm imm)))

/-- 41_arithmetic R120: the immediate is sign-extended, then compared unsigned. -/
def execSltiu (rt rs : RegIdx) (imm : BitVec 16) (s : State) : StepResult :=
  s.finishReg rt (boolWord (lessUnsigned (s.readReg rs) (simm imm)))

/-- 41_arithmetic R121 -/
def execLui (rt : RegIdx) (imm : BitVec 16) (s : State) : StepResult := s.finishReg rt (luimm imm)

/-- 41_arithmetic R122 -/
def execAnd (rd rs rt : RegIdx) (s : State) : StepResult := s.finishReg rd (s.readReg rs &&& s.readReg rt)

/-- 41_arithmetic R123 -/
def execOr (rd rs rt : RegIdx) (s : State) : StepResult := s.finishReg rd (s.readReg rs ||| s.readReg rt)

/-- 41_arithmetic R124 -/
def execXor (rd rs rt : RegIdx) (s : State) : StepResult := s.finishReg rd (s.readReg rs ^^^ s.readReg rt)

/-- 41_arithmetic R125 -/
def execAndi (rt rs : RegIdx) (imm : BitVec 16) (s : State) : StepResult := s.finishReg rt (s.readReg rs &&& zimm imm)

/-- 41_arithmetic R126 -/
def execOri (rt rs : RegIdx) (imm : BitVec 16) (s : State) : StepResult := s.finishReg rt (s.readReg rs ||| zimm imm)

/-- 41_arithmetic R127 -/
def execXori (rt rs : RegIdx) (imm : BitVec 16) (s : State) : StepResult := s.finishReg rt (s.readReg rs ^^^ zimm imm)

end Sys2Proof.Machine
end

