-- ==== Sys2Proof/Machine/Branch.lean ====
section
/-! DEFINITION. The instructions of 44_branch. A taken branch redirects to `npc + boff`, a branch that is not taken is
sequential; the delay slot runs either way (40_engine R96, R97). -/

namespace Sys2Proof.Machine

/-- Redirect to the branch target if the condition holds, else `Seq` (44_branch R160). -/
def branchIf (c : Bool) (off : BitVec 16) (s : State) : StepResult :=
  if c then .next (s.redirect (branchTarget s off)) else .next s.seq

/-- 44_branch R161 -/
def execBeq (rs rt : RegIdx) (off : BitVec 16) (s : State) : StepResult :=
  branchIf (s.readReg rs == s.readReg rt) off s

/-- 44_branch R162 -/
def execBne (rs rt : RegIdx) (off : BitVec 16) (s : State) : StepResult :=
  branchIf (s.readReg rs != s.readReg rt) off s

/-- 44_branch R163: `s(x[rs]) <= 0` -/
def execBlez (rs : RegIdx) (off : BitVec 16) (s : State) : StepResult :=
  branchIf (!isPositive (s.readReg rs)) off s

/-- 44_branch R164 -/
def execBgtz (rs : RegIdx) (off : BitVec 16) (s : State) : StepResult :=
  branchIf (isPositive (s.readReg rs)) off s

/-- 44_branch R165 -/
def execBltz (rs : RegIdx) (off : BitVec 16) (s : State) : StepResult :=
  branchIf (isNegative (s.readReg rs)) off s

/-- 44_branch R166: `s(x[rs]) >= 0` -/
def execBgez (rs : RegIdx) (off : BitVec 16) (s : State) : StepResult :=
  branchIf (!isNegative (s.readReg rs)) off s

/-- 44_branch R167: the condition reads the old register, and the link is written whether or not the branch is taken
(D18, D19). -/
def execBltzal (rs : RegIdx) (off : BitVec 16) (s : State) : StepResult :=
  branchIf (isNegative (s.readReg rs)) off (s.writeReg 31 (linkValue s))

/-- 44_branch R168 -/
def execBgezal (rs : RegIdx) (off : BitVec 16) (s : State) : StepResult :=
  branchIf (!isNegative (s.readReg rs)) off (s.writeReg 31 (linkValue s))

end Sys2Proof.Machine
end

