-- ==== Sys2Proof/Machine/Jump.lean ====
section
/-! DEFINITION. The instructions of 45_jump. Every jump redirects; none checks its target (40_engine R97, D26). -/

namespace Sys2Proof.Machine

/-- 45_jump R181 -/
def execJ (index : BitVec 26) (s : State) : StepResult := .next (s.redirect (jumpTarget s index))

/-- 45_jump R182 -/
def execJal (index : BitVec 26) (s : State) : StepResult :=
  .next ((s.writeReg 31 (linkValue s)).redirect (jumpTarget s index))

/-- 45_jump R183 -/
def execJr (rs : RegIdx) (s : State) : StepResult := .next (s.redirect (s.readReg rs))

/-- 45_jump R184: the target is read before the link is written (D19). -/
def execJalr (rd rs : RegIdx) (s : State) : StepResult :=
  .next ((s.writeReg rd (linkValue s)).redirect (s.readReg rs))

end Sys2Proof.Machine
end

