-- ==== Sys2Proof/Machine/LoadStore.lean ====
section
/-! DEFINITION. The instructions of 46_load_store. One addressing mode; the only fault is MemoryFault of the effective
address. -/

namespace Sys2Proof.Machine

/-- A load of width `n` into `rt`, its value extended by `ext` (46_load_store R191 to R195). -/
def loadVia (n : AccessWidth) (ext : Word → Word) (rt rs : RegIdx) (off : BitVec 16) (s : State) : StepResult :=
  match memRead s (effAddr s rs off) n with
  | some (v, s') => s'.finishReg rt (ext v)
  | none => s.finishFault (.memoryFault (effAddr s rs off))

/-- A store of width `n` from `rt` (46_load_store R199 to R201). -/
def storeVia (n : AccessWidth) (rt rs : RegIdx) (off : BitVec 16) (s : State) : StepResult :=
  match memWrite s (effAddr s rs off) n (s.readReg rt) with
  | some s' => .next s'.seq
  | none => s.finishFault (.memoryFault (effAddr s rs off))

/-- 46_load_store R191 -/
def execLb (rt rs : RegIdx) (off : BitVec 16) (s : State) : StepResult := loadVia .byte sext8 rt rs off s

/-- 46_load_store R192 -/
def execLbu (rt rs : RegIdx) (off : BitVec 16) (s : State) : StepResult := loadVia .byte zext8 rt rs off s

/-- 46_load_store R193 -/
def execLh (rt rs : RegIdx) (off : BitVec 16) (s : State) : StepResult := loadVia .half sext16 rt rs off s

/-- 46_load_store R194 -/
def execLhu (rt rs : RegIdx) (off : BitVec 16) (s : State) : StepResult := loadVia .half zext16 rt rs off s

/-- 46_load_store R195 -/
def execLw (rt rs : RegIdx) (off : BitVec 16) (s : State) : StepResult := loadVia .word id rt rs off s

/-- What LWL leaves in its register: the mips1 lanes, or the uninterpreted LWL_F (46_load_store R196, log entry 7). -/
def lwlMerge (mode : LwlrMode) (w old : Word) (k : BitVec 2) : Word :=
  match mode with
  | .mips1 => (w <<< (8 * k.toNat)) ||| (old &&& ((1#32 <<< (8 * k.toNat)) - 1#32))
  | .uninterpreted => Config.lwlF w old k

/-- What LWR leaves in its register: the mips1 lanes, or the uninterpreted LWR_F (46_load_store R197, log entry 7). -/
def lwrMerge (mode : LwlrMode) (w old : Word) (k : BitVec 2) : Word :=
  match mode with
  | .mips1 => (w >>> (8 * (3 - k.toNat))) ||| (old &&& ~~~(0xFFFFFFFF#32 >>> (8 * (3 - k.toNat))))
  | .uninterpreted => Config.lwrF w old k

/-- A merging load: the aligned word that contains the effective address must lie in DMEM, else MemoryFault of the
effective address (46_load_store R196, R197, 20_memory R51, D12). -/
def mergeVia (merge : LwlrMode → Word → Word → BitVec 2 → Word) (rt rs : RegIdx) (off : BitVec 16) (s : State) :
    StepResult :=
  let ea := effAddr s rs off
  if region (alignedWord ea) = .dmem then
    s.finishReg rt
      (merge s.params.lwlrMode (Memory.readBE s.dmem (alignedWord ea).toNat .word) (s.readReg rt) (byteOffset ea))
  else s.finishFault (.memoryFault ea)

/-- 46_load_store R196 -/
def execLwl (rt rs : RegIdx) (off : BitVec 16) (s : State) : StepResult := mergeVia lwlMerge rt rs off s

/-- 46_load_store R197 -/
def execLwr (rt rs : RegIdx) (off : BitVec 16) (s : State) : StepResult := mergeVia lwrMerge rt rs off s

/-- 46_load_store R199 -/
def execSb (rt rs : RegIdx) (off : BitVec 16) (s : State) : StepResult := storeVia .byte rt rs off s

/-- 46_load_store R200 -/
def execSh (rt rs : RegIdx) (off : BitVec 16) (s : State) : StepResult := storeVia .half rt rs off s

/-- 46_load_store R201 -/
def execSw (rt rs : RegIdx) (off : BitVec 16) (s : State) : StepResult := storeVia .word rt rs off s

end Sys2Proof.Machine
end

