-- ==== Sys2Proof/Machine/MultiplyDivide.lean ====
section
/-! DEFINITION. The instructions of 42_multiply_divide: multiply, divide, HI/LO moves. None of them faults. -/

namespace Sys2Proof.Machine

/-- `w32(n)`: an integer modulo 2^32 (00_scope R10). -/
def w32 (n : Int) : Word := BitVec.ofInt 32 n

/-- 42_multiply_divide R140: the 64-bit two's complement form of the signed product, split into HI and LO. -/
def execMult (rs rt : RegIdx) (s : State) : StepResult :=
  let q : BitVec 64 := BitVec.ofInt 64 ((s.readReg rs).toInt * (s.readReg rt).toInt)
  .next (s.writeHiLo (q.extractLsb 63 32) (q.extractLsb 31 0)).seq

/-- 42_multiply_divide R141 -/
def execMultu (rs rt : RegIdx) (s : State) : StepResult :=
  let p : Nat := (s.readReg rs).toNat * (s.readReg rt).toNat
  .next (s.writeHiLo (BitVec.ofNat 32 (p / 2 ^ 32)) (BitVec.ofNat 32 (p % 2 ^ 32))).seq

/-- 42_multiply_divide R142: quotient toward zero in LO, remainder with the dividend's sign in HI; a zero divisor
changes neither; 0x80000000 / 0xFFFFFFFF gives the parameter DIV_OVERFLOW_RESULT (D16, D17). -/
def execDiv (rs rt : RegIdx) (s : State) : StepResult :=
  let a := s.readReg rs
  let b := s.readReg rt
  if b = 0x00000000 then .next s.seq
  else if a = 0x80000000 ∧ b = 0xFFFFFFFF then
    .next (s.writeHiLo s.params.divOverflowHi s.params.divOverflowLo).seq
  else .next (s.writeHiLo (w32 (a.toInt.tmod b.toInt)) (w32 (a.toInt.tdiv b.toInt))).seq

/-- 42_multiply_divide R143 -/
def execDivu (rs rt : RegIdx) (s : State) : StepResult :=
  let a := s.readReg rs
  let b := s.readReg rt
  if b = 0x00000000 then .next s.seq
  else .next (s.writeHiLo (BitVec.ofNat 32 (a.toNat % b.toNat)) (BitVec.ofNat 32 (a.toNat / b.toNat))).seq

/-- 42_multiply_divide R144 -/
def execMfhi (rd : RegIdx) (s : State) : StepResult := s.finishReg rd s.hi

/-- 42_multiply_divide R145 -/
def execMflo (rd : RegIdx) (s : State) : StepResult := s.finishReg rd s.lo

/-- 42_multiply_divide R146 -/
def execMthi (rs : RegIdx) (s : State) : StepResult := .next (s.writeHi (s.readReg rs)).seq

/-- 42_multiply_divide R147 -/
def execMtlo (rs : RegIdx) (s : State) : StepResult := .next (s.writeLo (s.readReg rs)).seq

end Sys2Proof.Machine
end

