-- ==== Sys2Proof/Machine/Shift.lean ====
section
/-! DEFINITION. The instructions of 43_shift. Register T is shifted; the amount is the shamt field or the low 5 bits of
register S. -/

namespace Sys2Proof.Machine

/-- 43_shift R150 -/
def execSll (rd rt : RegIdx) (sa : BitVec 5) (s : State) : StepResult :=
  s.finishReg rd (s.readReg rt <<< sa.toNat)

/-- 43_shift R151 -/
def execSrl (rd rt : RegIdx) (sa : BitVec 5) (s : State) : StepResult :=
  s.finishReg rd (s.readReg rt >>> sa.toNat)

/-- 43_shift R152 -/
def execSra (rd rt : RegIdx) (sa : BitVec 5) (s : State) : StepResult :=
  s.finishReg rd ((s.readReg rt).sshiftRight sa.toNat)

/-- 43_shift R153 -/
def execSllv (rd rt rs : RegIdx) (s : State) : StepResult :=
  s.finishReg rd (s.readReg rt <<< (shiftAmount (s.readReg rs)).toNat)

/-- 43_shift R154 -/
def execSrlv (rd rt rs : RegIdx) (s : State) : StepResult :=
  s.finishReg rd (s.readReg rt >>> (shiftAmount (s.readReg rs)).toNat)

/-- 43_shift R155 -/
def execSrav (rd rt rs : RegIdx) (s : State) : StepResult :=
  s.finishReg rd ((s.readReg rt).sshiftRight (shiftAmount (s.readReg rs)).toNat)

end Sys2Proof.Machine
end

