-- ==== Sys2Proof/Machine/Engine.lean ====
section
/-! DEFINITION. The engine of 40_engine: one step of a running core (R90), unknown words (30_encoding R80), and the
placing of a word where the next fetch reads it. -/

namespace Sys2Proof.Machine

/-- An unknown word: by the parameter UNKNOWN_ENCODING a no-op that advances the pc pair, or InvalidInstruction
(30_encoding R80, 40_engine R95, D2, D31). -/
def execUnknown (s : State) : StepResult :=
  match s.params.unknownEncoding with
  | .nop => .next s.seq
  | .invalidInstruction => s.finishFault .invalidInstruction

/-- The word at `pc`, once fetched: the zero word halts, an instruction runs, any other word is unknown
(40_engine R94, R95). -/
def execWord (w : Word) (s : State) : StepResult :=
  match decodeWord w with
  | .ok i => exec i s
  | .error .zeroWord => .next s.halt
  | .error .unknownEncoding => execUnknown s
  | .error .truncated => execUnknown s

/-- One step of a running core, its checks in the order of 60 R223: the null pc, the fetch, the word
(40_engine R90 to R95). -/
def cycle (s : State) : StepResult :=
  if s.pc = 0x00000000 then .next s.halt
  else match fetch s s.pc with
    | none => s.finishFault (.memoryFault s.pc)
    | some w => execWord w s

/-- One step: only a running core steps (10_state R28, 60 R225; log entry 3). -/
def engineStep (s : State) : StepResult :=
  match s.status with
  | .running => cycle s
  | .halted _ => .fault .runEnded
  | .faulted _ _ => .fault .runEnded

/-- The state with a word in the four bytes of IMEM that `pc` names, most significant byte first (20_memory R42, R48);
a pc that no fetch may read leaves the state as it is (log entry 5). -/
def State.placeWord (s : State) (w : Word) : State :=
  if aligned s.pc .word ∧ region s.pc = .imem then
    { s with imem := Memory.writeBE s.imem s.pc.toNat w .word }
  else s

end Sys2Proof.Machine
end

