-- ==== Sys2Proof/Machine/Step.lean ====
section
/-! DEFINITION. The step function, and the state with a given word as the next instruction. -/

namespace Sys2Proof.Machine

/-- One step of the machine (40_engine R90). -/
def step (s : State) : Host.Outcome State Fault Refusal := engineStep s

/-- The state whose next fetch reads the word with the bits `w` (log entry 5). -/
def State.withFetchWord (s : State) (nbits w : Nat) : State := s.placeWord (tableWord nbits w)

end Sys2Proof.Machine
end

