-- ==== Sys2Proof/Machine/Loader.lean ====
section
/-! DEFINITION. Construction and load: 70_reset_and_hazards R250 to R253. -/

namespace Sys2Proof.Machine

/-- The bytes of an image from an address on, in canonical form (70 R252). -/
def Memory.ofImage (base : Nat) : List Byte → Memory
  | [] => []
  | b :: bs => Memory.consByte base b (Memory.ofImage (base + 1) bs)

/-- A machine constructed for a run with the given parameters and INPUT, before the load (70 R250, 10_state R32). -/
def State.construct (p : Params) (input : List Byte) : State := { State.reset with params := p, input := input }

/-- `Load(IMAGE)`: the image's bytes from IMEM_BASE on, or InternalError where they do not fit (70 R252, D24). -/
def State.load (s : State) (image : List Byte) : State :=
  if image.length > Config.imemSize then s.raise .internalError
  else { s with imem := Memory.ofImage Config.imemBase image }

/-- The state in which a run starts: construction, then load (70 R250 to R253). -/
def State.boot (p : Params) (image input : List Byte) : State := (State.construct p input).load image

/-- The start of a run whose host may have no image to give ("missing argument or unopenable file"): then InternalError
and no load (60 R220). -/
def State.bootFrom (p : Params) (image : Option (List Byte)) (input : List Byte) : State :=
  match image with
  | some bytes => State.boot p bytes input
  | none => (State.construct p input).raise .internalError

end Sys2Proof.Machine
end

