-- ==== Sys2Proof/Safety.lean ====
section
/-! DEFINITION. What counts as a safe state and a safe run, in the terms the claims use. -/

namespace Sys2Proof.Machine

/-- The status agrees with the rest of the state: a halted core stands at the null address or at the zero word and its
code is the low byte of register 2 (40_engine R91, R93, R94); a faulted core has the exit status of its kind
(10_state R28, 60 R220). -/
def State.statusOk (s : State) : Prop :=
  match s.status with
  | .running => True
  | .halted code => code = s.haltCode ∧ (s.pc = 0 ∨ fetch s s.pc = some 0)
  | .faulted k code => code = Params.exitCode s.params k

/-- The invariant of the machine: each memory is in canonical form inside its own segment (20_memory R40), the stored
register 0 is zero when it is hard-wired (10_state R21), and the status agrees with the rest of the state. -/
structure State.Inv (s : State) : Prop where
  imem_wf : Memory.wfFrom Config.imemBase (Config.imemBase + Config.imemSize) s.imem = true
  dmem_wf : Memory.wfFrom Config.dmemBase (Config.dmemBase + Config.dmemSize) s.dmem = true
  reg_zero : s.params.r0Hardwired = true → s.regs[0] = 0
  status_ok : s.statusOk

/-- `t` is reached from `s` by steps. -/
inductive Reaches : State → State → Prop where
  | refl (s : State) : Reaches s s
  | step {s t u : State} : step s = .next t → Reaches t u → Reaches s u

/-- The core has faulted (10_state R28). -/
def State.hasFaulted (s : State) : Bool :=
  match s.status with
  | .running => false
  | .halted _ => false
  | .faulted _ _ => true

/-- A run from `s` is safe when no state it reaches has faulted (60 R220). -/
def SafeRun (s : State) : Prop := ∀ t, Reaches s t → t.hasFaulted = false

/-- The exit status of a run that has ended (40_engine R103). -/
def State.exitStatus (s : State) : Option Byte :=
  match s.status with
  | .running => none
  | .halted code => some code
  | .faulted _ code => some code

end Sys2Proof.Machine
end

