-- ==== Sys2Proof/Certificates/Slice0/Obligations.lean ====
section
/-! DEFINITION. The statements for the provers, each from a rule of spec/. The first part names, in the spec's terms,
what a statement says an instruction leaves: results are given by exact arithmetic or bit by bit, not by the
expressions the meanings use. -/

namespace Sys2Proof.Claims

open Sys2Proof.Machine

/-! ### What an instruction leaves as it was -/

/-- Every byte of memory reads as before. -/
def SameMemory (s t : State) : Prop :=
  (∀ a, Memory.read t.imem a = Memory.read s.imem a) ∧ ∀ a, Memory.read t.dmem a = Memory.read s.dmem a

def SameRegs (s t : State) : Prop := ∀ r, t.readReg r = s.readReg r

def SameHiLo (s t : State) : Prop := t.hi = s.hi ∧ t.lo = s.lo

def SameStreams (s t : State) : Prop := t.input = s.input ∧ t.output = s.output

def SameRun (s t : State) : Prop := t.status = s.status ∧ t.params = s.params

/-- The sequential advance of 40_engine R96. -/
def Advances (s t : State) : Prop := t.pc = s.npc ∧ t.npc = s.npc + 4

/-- The control transfer of 40_engine R97. -/
def Redirects (s t : State) (target : Word) : Prop := t.pc = s.npc ∧ t.npc = target

/-- Register `d` holds `v` and every other register is as before; a hard-wired register 0 discards the write
(10_state R21). -/
def WritesReg (s t : State) (d : RegIdx) (v : Word) : Prop :=
  ∀ r, t.readReg r = if r = d ∧ ¬ (d = 0 ∧ s.params.r0Hardwired = true) then v else s.readReg r

/-! ### How an instruction completes -/

/-- The instruction writes `v` to register `d` and advances; all else is as before. -/
def CompletesWithReg (i : Instr) (s : State) (d : RegIdx) (v : Word) : Prop :=
  ∃ t, exec i s = .next t ∧ WritesReg s t d v ∧ SameHiLo s t ∧ SameMemory s t ∧ SameStreams s t ∧ SameRun s t ∧
    Advances s t

/-- The instruction leaves HI and LO as `P` says and advances; all else is as before. -/
def CompletesWithHiLo (i : Instr) (s : State) (P : Word → Word → Prop) : Prop :=
  ∃ t, exec i s = .next t ∧ P t.hi t.lo ∧ SameRegs s t ∧ SameMemory s t ∧ SameStreams s t ∧ SameRun s t ∧ Advances s t

/-- The instruction redirects to `target`, or advances where there is none; all else is as before. -/
def CompletesWithFlow (i : Instr) (s : State) (target : Option Word) : Prop :=
  ∃ t, exec i s = .next t ∧ SameRegs s t ∧ SameHiLo s t ∧ SameMemory s t ∧ SameStreams s t ∧ SameRun s t ∧
    Redirects s t (target.getD (s.npc + 4))

/-- The instruction writes the link value `npc + 4` to register `d`, and redirects to `target` or advances where there
is none; all else is as before. -/
def CompletesWithLink (i : Instr) (s : State) (d : RegIdx) (target : Option Word) : Prop :=
  ∃ t, exec i s = .next t ∧ WritesReg s t d (s.npc + 4) ∧ SameHiLo s t ∧ SameMemory s t ∧ SameStreams s t ∧
    SameRun s t ∧ Redirects s t (target.getD (s.npc + 4))

/-- The instruction consumes one input character if there is one, writes `v` to register `d` and advances; all else
is as before. -/
def CompletesWithInput (i : Instr) (s : State) (d : RegIdx) (v : Word) : Prop :=
  ∃ t, exec i s = .next t ∧ WritesReg s t d v ∧ t.input = s.input.tail ∧ t.output = s.output ∧ SameHiLo s t ∧
    SameMemory s t ∧ SameRun s t ∧ Advances s t

/-- The instruction emits one byte and advances; all else is as before. -/
def CompletesWithOutput (i : Instr) (s : State) (b : Byte) : Prop :=
  ∃ t, exec i s = .next t ∧ t.output = s.output ++ [b] ∧ t.input = s.input ∧ SameRegs s t ∧ SameHiLo s t ∧
    SameMemory s t ∧ SameRun s t ∧ Advances s t

/-- The instruction stores the low `n` bytes of `v` in big-endian order from data address `a` on and advances; every
other byte and all else is as before. -/
def CompletesWithStore (i : Instr) (s : State) (a : Word) (n : Nat) (v : Word) : Prop :=
  ∃ t, exec i s = .next t ∧
    (∀ k, k < n → Memory.read t.dmem (a.toNat + k) = BitVec.ofNat 8 (v.toNat / 256 ^ (n - 1 - k))) ∧
    (∀ c, c < a.toNat ∨ a.toNat + n ≤ c → Memory.read t.dmem c = Memory.read s.dmem c) ∧
    (∀ c, Memory.read t.imem c = Memory.read s.imem c) ∧
    SameRegs s t ∧ SameHiLo s t ∧ SameStreams s t ∧ SameRun s t ∧ Advances s t

/-- The instruction ends the run with a fault of kind `k` and exit status `c`; nothing else changes
(40_engine R102). -/
def FaultsWith (i : Instr) (s : State) (k : FaultKind) (c : Byte) : Prop :=
  exec i s = .next { s with status := .faulted k c }

/-! ### Encodings

The opcode, function and discriminator values are the spec's own, from general knowledge (30_encoding R73 to R75, D4, log
entry 12), as the rules of the instructions repeat them. -/

/-- Every word with this primary opcode is the instruction `f` reads from its fields (30_encoding R73). -/
def PrimaryOpcode (op : BitVec 6) (f : Word → Instr) : Prop := ∀ w, opcodeOf w = op → decodeWord w = .ok (f w)

/-- Every SPECIAL word but the zero word with this function code is the instruction `f` reads from its fields
(30_encoding R74, R79). -/
def SpecialFunct (funct : BitVec 6) (f : Word → Instr) : Prop :=
  ∀ w, w ≠ 0 → opcodeOf w = 0x00 → functOf w = funct → decodeWord w = .ok (f w)

/-- Every B_SPEC word with this discriminator is the instruction `f` reads from its fields (30_encoding R75). -/
def BranchDiscriminator (d : BitVec 5) (f : Word → Instr) : Prop :=
  ∀ w, opcodeOf w = 0x01 → rtOf w = d → decodeWord w = .ok (f w)

/-! ### Control transfers -/

/-- The branch target of 44_branch R160: `npc` plus four times the signed offset, modulo 2^32. -/
def branchDest (s : State) (off : BitVec 16) : Word := s.npc + BitVec.ofInt 32 (4 * off.toInt)

/-- The jump target of 45_jump R180: the upper four bits of `pc`, then the 26-bit index, then two zero bits. -/
def jumpDest (s : State) (index : BitVec 26) : Word :=
  BitVec.ofNat 32 (s.pc.toNat / 2 ^ 28 * 2 ^ 28 + 4 * index.toNat)

/-- Where a condition holds, the branch target. -/
def destIf (c : Prop) [Decidable c] (s : State) (off : BitVec 16) : Option Word :=
  if c then some (branchDest s off) else none

/-- The target of a transfer that is taken, and none for every other instruction (44_branch, 45_jump). -/
def transferTarget (s : State) : Instr → Option Word
  | .beq rs rt off => destIf (s.readReg rs = s.readReg rt) s off
  | .bne rs rt off => destIf (s.readReg rs ≠ s.readReg rt) s off
  | .blez rs off => destIf ((s.readReg rs).toInt ≤ 0) s off
  | .bgtz rs off => destIf ((s.readReg rs).toInt > 0) s off
  | .bltz rs off => destIf ((s.readReg rs).toInt < 0) s off
  | .bgez rs off => destIf ((s.readReg rs).toInt ≥ 0) s off
  | .bltzal rs off => destIf ((s.readReg rs).toInt < 0) s off
  | .bgezal rs off => destIf ((s.readReg rs).toInt ≥ 0) s off
  | .j index => some (jumpDest s index)
  | .jal index => some (jumpDest s index)
  | .jr rs => some (s.readReg rs)
  | .jalr _ rs => some (s.readReg rs)
  | _ => none

/-! ### Memory -/

/-- The address lies in the data segment (20_memory R40). -/
abbrev InData (a : Word) : Prop := 0x20000000 ≤ a.toNat ∧ a.toNat ≤ 0x23FFFFFF

/-- The address lies in the instruction segment (20_memory R40). -/
abbrev InInstr (a : Word) : Prop := 0x10000000 ≤ a.toNat ∧ a.toNat ≤ 0x10FFFFFF

/-- The big-endian number in the `n` bytes from `a` on (20_memory R42). -/
def bigEndian (m : Memory) (a : Nat) : Nat → Nat
  | 0 => 0
  | n + 1 => 256 * bigEndian m a n + (Memory.read m (a + n)).toNat

/-- What a read of the input port gives: the next character zero-extended, or GETC_EOF at end of input
(20_memory R49). -/
def inputValue (s : State) : Word := (s.input.head?.map (BitVec.setWidth 32)).getD s.params.getcEof

/-- What a load of `n` bytes does: a DMEM access, an access to the input port (where the width admits it), or
MemoryFault of the effective address; `ext` is the extension of the value (46_load_store R191 to R195). -/
def LoadBehaves (i : Instr) (s : State) (n : Nat) (ext : Word → Word) (rt rs : RegIdx) (off : BitVec 16) : Prop :=
  let ea := effAddr s rs off
  (ea.toNat % n = 0 → InData ea →
    CompletesWithReg i s rt (ext (BitVec.ofNat 32 (bigEndian s.dmem ea.toNat n)))) ∧
  (ea = 0x30000000 → n ≠ 2 → CompletesWithInput i s rt (ext (inputValue s))) ∧
  (¬ (ea.toNat % n = 0 ∧ InData ea) → ¬ (ea = 0x30000000 ∧ n ≠ 2) →
    FaultsWith i s (.memoryFault ea) s.params.exitMemory)

/-- What a store of `n` bytes does: a DMEM access, one output byte (where the width admits it), or MemoryFault of the
effective address (46_load_store R199 to R201). -/
def StoreBehaves (i : Instr) (s : State) (n : Nat) (rt rs : RegIdx) (off : BitVec 16) : Prop :=
  let ea := effAddr s rs off
  (Memory.wf s.dmem = true → ea.toNat % n = 0 → InData ea → CompletesWithStore i s ea n (s.readReg rt)) ∧
  (ea = 0x30000004 → n ≠ 2 → CompletesWithOutput i s (BitVec.ofNat 8 (s.readReg rt).toNat)) ∧
  (¬ (ea.toNat % n = 0 ∧ InData ea) → ¬ (ea = 0x30000004 ∧ n ≠ 2) →
    FaultsWith i s (.memoryFault ea) s.params.exitMemory)

/-- The lane table of LWL under mips1 (46_load_store R196). -/
def lwlLanes (w old : Word) : Nat → Word
  | 0 => w
  | 1 => (w.extractLsb 23 0 : BitVec 24) ++ (old.extractLsb 7 0 : BitVec 8)
  | 2 => (w.extractLsb 15 0 : BitVec 16) ++ (old.extractLsb 15 0 : BitVec 16)
  | _ => (w.extractLsb 7 0 : BitVec 8) ++ (old.extractLsb 23 0 : BitVec 24)

/-- The lane table of LWR under mips1 (46_load_store R197). -/
def lwrLanes (w old : Word) : Nat → Word
  | 0 => (old.extractLsb 31 8 : BitVec 24) ++ (w.extractLsb 31 24 : BitVec 8)
  | 1 => (old.extractLsb 31 16 : BitVec 16) ++ (w.extractLsb 31 16 : BitVec 16)
  | 2 => (old.extractLsb 31 24 : BitVec 8) ++ (w.extractLsb 31 8 : BitVec 24)
  | _ => w

/-- What LWL or LWR does: it merges the aligned word of DMEM that contains the effective address, by the lane table or
by the uninterpreted function, or MemoryFault of the effective address (46_load_store R196, R197). -/
def MergeBehaves (i : Instr) (s : State) (lanes : Word → Word → Nat → Word) (free : Word → Word → BitVec 2 → Word)
    (rt rs : RegIdx) (off : BitVec 16) : Prop :=
  let ea := effAddr s rs off
  let k := ea.toNat % 4
  let w := BitVec.ofNat 32 (bigEndian s.dmem (ea.toNat - k) 4)
  (InData ea → s.params.lwlrMode = .mips1 → CompletesWithReg i s rt (lanes w (s.readReg rt) k)) ∧
  (InData ea → s.params.lwlrMode = .uninterpreted →
    CompletesWithReg i s rt (free w (s.readReg rt) (BitVec.ofNat 2 k))) ∧
  (¬ InData ea → FaultsWith i s (.memoryFault ea) s.params.exitMemory)

/-! ### The engine -/

/-- A running core whose pc may be fetched, with `w` in the four bytes there (20_memory R48). -/
def Fetches (s : State) (w : Word) : Prop :=
  s.status = .running ∧ s.pc.toNat % 4 = 0 ∧ InInstr s.pc ∧
    w = BitVec.ofNat 32 (bigEndian s.imem s.pc.toNat 4)

/-- The instruction reads or writes HI or LO (10_state R23). -/
def usesHiLo : Instr → Bool
  | .mult _ _ | .multu _ _ | .div _ _ | .divu _ _ | .mfhi _ | .mflo _ | .mthi _ | .mtlo _ => true
  | _ => false

/-- The output after an instruction: SB and SW to the output port append the low byte of their register
(20_memory R50). -/
def outputAfter (s : State) : Instr → List Byte
  | .sb rt rs off | .sw rt rs off =>
    if effAddr s rs off = 0x30000004 then s.output ++ [BitVec.ofNat 8 (s.readReg rt).toNat] else s.output
  | _ => s.output

/-- The input after an instruction: LB, LBU and LW from the input port consume a character (20_memory R49). -/
def inputAfter (s : State) : Instr → List Byte
  | .lb _ rs off | .lbu _ rs off | .lw _ rs off =>
    if effAddr s rs off = 0x30000000 then s.input.tail else s.input
  | _ => s.input

/-- The data addresses an instruction stores to: `n` bytes from the first on, and none for an instruction or an
address that stores nothing (46_load_store R199 to R201). -/
def storedBytes (s : State) : Instr → Option (Word × Nat)
  | .sb _ rs off => some (effAddr s rs off, 1)
  | .sh _ rs off => some (effAddr s rs off, 2)
  | .sw _ rs off => some (effAddr s rs off, 4)
  | _ => none

/-- The faults of an instruction: ADD, ADDI and SUB may overflow, a load or store may raise MemoryFault of its
effective address, nothing else faults (60 R220, R223). -/
def faultOf (s : State) : Instr → Option FaultKind
  | .add _ _ _ | .addi _ _ _ | .sub _ _ _ => some .arithmeticOverflow
  | .lb _ rs off | .lbu _ rs off | .lh _ rs off | .lhu _ rs off | .lw _ rs off | .lwl _ rs off | .lwr _ rs off
  | .sb _ rs off | .sh _ rs off | .sw _ rs off => some (.memoryFault (effAddr s rs off))
  | _ => none

end Sys2Proof.Claims

open Sys2Proof Sys2Proof.Machine Sys2Proof.Claims

/-! ## Encoding (30_encoding) -/

/-- Words written out from the tables of R73 to R75 (the values are the spec's own, from general knowledge, log entry
12) decode to the instructions they stand for; the zero word, a SYSCALL word and a B_SPEC word with rt = 2 are none. -/
def Obligations.SampleWordsDecode : Prop :=
  decodeWord 0x01095020 = .ok (.add 10 8 9) ∧ decodeWord 0x008517E0 = .ok (.add 2 4 5) ∧
  decodeWord 0x2109FFFF = .ok (.addi 9 8 0xFFFF) ∧ decodeWord 0x3C09FFFF = .ok (.lui 9 0xFFFF) ∧
  decodeWord 0x014B001A = .ok (.div 10 11) ∧ decodeWord 0x00084FC0 = .ok (.sll 9 8 31) ∧
  decodeWord 0x01285004 = .ok (.sllv 10 8 9) ∧ decodeWord 0x05100010 = .ok (.bltzal 8 0x10) ∧
  decodeWord 0x1509FFFC = .ok (.bne 8 9 0xFFFC) ∧ decodeWord 0x0C000010 = .ok (.jal 0x10) ∧
  decodeWord 0x0100F809 = .ok (.jalr 31 8) ∧ decodeWord 0x89090001 = .ok (.lwl 9 8 1) ∧
  decodeWord 0xAD090004 = .ok (.sw 9 8 4) ∧ decodeWord 0x00000000 = .error .zeroWord ∧
  decodeWord 0x0000000C = .error .unknownEncoding ∧ decodeWord 0x04020000 = .error .unknownEncoding

/-- Decoding an encoded well-formed instruction gives it back, from its word and from its bytes in memory. -/
def Obligations.DecodeOfEncodeIsTheInstruction : Prop :=
  ∀ i : Instr, i.wellFormed = true →
    decodeWord (encode i) = .ok i ∧ ∀ rest, decodeBytes (encodeBytes i ++ rest) = .ok (i, rest)

/-- A word decodes to an instruction exactly when it is not the zero word and agrees with the instruction's encoding on
the bits that select it or are its operands: decode reads all of these bits and no others (R76, R77, R79). That unused
fields are ignored is the spec's own decision D21, log entry 12; that the encoder writes zeros there is the model's
choice, log entry 6. -/
def Obligations.DecodeReadsExactlyTheUsedBits : Prop :=
  ∀ (w : Word) (i : Instr), decodeWord w = .ok i ↔ w ≠ 0 ∧ w &&& i.usedMask = encode i

/-- Every word is one of three things: the zero word, a word of a row of spec/opcode_table.json, decoded to that row's
instruction, or unknown (R81). -/
def Obligations.EveryWordIsZeroInstructionOrUnknown : Prop :=
  ∀ w : Word,
    (decodeWord w = .error .zeroWord ↔ w = 0) ∧
    (decodeWord w = .error .unknownEncoding ↔ w ≠ 0 ∧ ∀ row ∈ opcodeTable, row.hasWord w = false) ∧
    (∀ i, decodeWord w = .ok i → i.row ∈ opcodeTable ∧ i.row.hasWord w = true) ∧
    decodeWord w ≠ .error .truncated

/-! ## The engine (40_engine, 30_encoding R80, 60) -/

/-- When the bytes at the pc of a running core decode to an instruction, the step is that instruction. -/
def Obligations.StepRunsTheDecodedInstruction : Prop :=
  ∀ (s : State) (b0 b1 b2 b3 : Byte) (i : Instr), s.status = .running → s.pc.toNat % 4 = 0 → InInstr s.pc →
    b0 = Memory.read s.imem s.pc.toNat → b1 = Memory.read s.imem (s.pc.toNat + 1) →
    b2 = Memory.read s.imem (s.pc.toNat + 2) → b3 = Memory.read s.imem (s.pc.toNat + 3) →
    decodeBytes [b0, b1, b2, b3] = .ok (i, []) → step s = exec i s

/-- R80: an unknown word is a no-op that advances the pc pair, or InvalidInstruction, by the parameter, whose default
is the no-op. The parameter is the spec's own decision D2, log entry 12. -/
def Obligations.UnknownWordFollowsThePolicy : Prop :=
  Params.defaults.unknownEncoding = .nop ∧
  ∀ (s : State) (w : Word), Fetches s w → decodeWord w = .error .unknownEncoding →
    (s.params.unknownEncoding = .nop →
      ∃ t, step s = .next t ∧ SameRegs s t ∧ SameHiLo s t ∧ SameMemory s t ∧ SameStreams s t ∧ SameRun s t ∧
        Advances s t) ∧
    (s.params.unknownEncoding = .invalidInstruction →
      step s = .next { s with status := .faulted .invalidInstruction s.params.exitInvalid })

/-- At the null address a running core halts with the low byte of register 2 (R91, R93); that this comes before the fetch
is the spec's own decision D9, log entry 12. -/
def Obligations.NullPcHalts : Prop :=
  ∀ s : State, s.status = .running → s.pc = 0 →
    step s = .next { s with status := .halted (BitVec.ofNat 8 (s.readReg 2).toNat) }

/-- The zero word halts a running core with the low byte of register 2 and executes nothing (R94, R93); that the word
checked is the one about to execute is the spec's own decision D8, log entry 12. -/
def Obligations.ZeroWordHalts : Prop :=
  ∀ s : State, Fetches s 0 → step s = .next { s with status := .halted (BitVec.ofNat 8 (s.readReg 2).toNat) }

/-- R93: whatever step halts, the exit status is the low byte of register 2 at that moment, and only the status
changes. -/
def Obligations.HaltStatusIsTheLowByteOfRegisterTwo : Prop :=
  ∀ (s t : State) (c : Byte), step s = .next t → t.status = .halted c →
    c = BitVec.ofNat 8 (s.readReg 2).toNat ∧ t = { s with status := .halted c } ∧ t.exitStatus = some c

/-- The fetch reads the big-endian word at an aligned pc of the instruction segment; any other pc that is not 0 faults at
its fetch and executes nothing (R92; that fetch is allowed only there is the spec's own decision D10, log entry 12). -/
def Obligations.FetchReadsTheWordAtPcOrFaults : Prop :=
  ∀ s : State,
    (s.pc.toNat % 4 = 0 ∧ InInstr s.pc → fetch s s.pc = some (BitVec.ofNat 32 (bigEndian s.imem s.pc.toNat 4))) ∧
    (s.status = .running → s.pc ≠ 0 → ¬ (s.pc.toNat % 4 = 0 ∧ InInstr s.pc) →
      step s = .next { s with status := .faulted (.memoryFault s.pc) s.params.exitMemory })

/-- A core that is Halted or Faulted takes no step and stays as it is. That the model says so by stopping with the
reason `runEnded` is the model's choice, log entry 3. -/
def Obligations.EndedRunIsFinal : Prop :=
  ∀ s : State, s.status ≠ .running → step s = .fault .runEnded ∧ ∀ t, Reaches s t → t = s

/-- A running core always takes a step: no word, address or operand stops the model without a next state. -/
def Obligations.RunningCoreAlwaysSteps : Prop :=
  ∀ s : State, s.status = .running → ∃ t, step s = .next t

/-- A step that faults changes nothing but the status, whose code is the exit status of the kind (R102, the spec's own
decision D27, log entry 12). -/
def Obligations.FaultingStepChangesOnlyTheStatus : Prop :=
  ∀ (s t : State) (k : FaultKind) (c : Byte), step s = .next t → t.status = .faulted k c →
    t = { s with status := .faulted k c } ∧
      c = (match k with
        | .arithmeticOverflow => s.params.exitArithmetic
        | .memoryFault _ => s.params.exitMemory
        | .invalidInstruction => s.params.exitInvalid
        | .internalError => s.params.exitInternal)

/-- Only ADD, ADDI and SUB raise ArithmeticOverflow, and only loads and stores raise MemoryFault, of their effective
address; every other instruction leaves the status as it is (R220, R223). -/
def Obligations.OnlyTheseInstructionsFault : Prop :=
  ∀ (i : Instr) (s t : State), exec i s = .next t →
    t.status = s.status ∨
      ∃ k, faultOf s i = some k ∧ t = { s with status := .faulted k (Params.exitCode s.params k) }

/-- An instruction that does not fault moves `pc` to the old `npc`, and `npc` to the target of a taken transfer or else 4
further (R96, and the two assignments of R97). That a transfer answers a running state whatever its target is said by
the statements of the branches and jumps, not here. -/
def Obligations.PcPairAdvancesOrRedirects : Prop :=
  ∀ (i : Instr) (s t : State), s.status = .running → exec i s = .next t → t.status = .running →
    t.pc = s.npc ∧ t.npc = (transferTarget s i).getD (s.npc + 4)

/-- R98: after a taken transfer at A targeting T, the instruction at A + 4 executes next, and the one at T next after
it; if the step at A + 4 faults or halts, no state is reached after it. -/
def Obligations.DelaySlotExecutesBeforeTheTarget : Prop :=
  ∀ (s : State) (w : Word) (i : Instr) (target : Word), Fetches s w → decodeWord w = .ok i → s.npc = s.pc + 4 →
    transferTarget s i = some target →
    ∃ t, step s = .next t ∧ t.status = .running ∧ t.pc = s.pc + 4 ∧
      ∀ u, step t = .next u →
        (u.status = .running → u.pc = target) ∧ (u.status ≠ .running → ∀ v, Reaches u v → v = u)

/-- R100: a transfer in the delay slot of a transfer to T1 computes its branch target and its link from T1; one
instruction executes at T1 before its own target, and execution continues at T1 if it is not taken. The rule is the
spec's own inference, D25, log entry 12. -/
def Obligations.TransferInADelaySlot : Prop :=
  ∀ (i1 i2 : Instr) (s t u : State) (t1 : Word), s.status = .running → exec i1 s = .next t →
    transferTarget s i1 = some t1 → exec i2 t = .next u → u.status = .running →
    (∀ off, branchDest t off = t1 + BitVec.ofInt 32 (4 * off.toInt)) ∧ linkValue t = t1 + 4 ∧
    u.pc = t1 ∧ u.npc = (transferTarget t i2).getD (t1 + 4)

/-! ## Reset, load and the invariant (10_state R32, 70) -/

/-- R32, R250, R252: the state a run starts in, for every setting of the parameters, every image and every input; an
image that does not fit is refused with InternalError and loads nothing, and an empty one halts at once with status
0. The zeros of the registers, the finite INPUT and the refusal are the spec's own decisions D6, D15 and D24, log
entry 12. -/
def Obligations.BootStateFromImageAndInput : Prop :=
  ∀ (p : Params) (image input : List Byte),
    let s := State.boot p image input
    (∀ r, s.readReg r = 0) ∧ s.hi = 0 ∧ s.lo = 0 ∧ s.pc = 0x10000000 ∧ s.npc = 0x10000004 ∧
    (∀ a, Memory.read s.dmem a = 0) ∧ s.input = input ∧ s.output = [] ∧ s.params = p ∧
    (image.length ≤ 0x01000000 → s.status = .running ∧
      (∀ j, j < image.length → Memory.read s.imem (0x10000000 + j) = image.getD j 0) ∧
      ∀ a, a < 0x10000000 ∨ 0x10000000 + image.length ≤ a → Memory.read s.imem a = 0) ∧
    (0x01000000 < image.length → s.status = .faulted .internalError p.exitInternal ∧
      ∀ a, Memory.read s.imem a = 0) ∧
    (image = [] → step s = .next { s with status := .halted 0 })

/-- A host that has no image to give starts no run: the status is InternalError with its exit status, no step follows,
and the rest is the state of R32 with an empty image. The kind, its cause and its exit status are R220's; that the rest
is the constructed state is the model's reading, log entry 13, and that no step follows is `runEnded`, log entry 3. -/
def Obligations.HostFailureStartsNoRun : Prop :=
  ∀ (p : Params) (input : List Byte),
    let s := State.bootFrom p none input
    s = { State.boot p [] input with status := .faulted .internalError p.exitInternal } ∧
    s.exitStatus = some p.exitInternal ∧ step s = .fault .runEnded

/-- `State.reset` is the start of a run with the default parameters of R8, an empty image and an empty input; that
these stand in `State.reset` is the model's choice, log entry 5. -/
def Obligations.ResetIsTheEmptyBoot : Prop :=
  State.reset = State.boot Params.defaults [] [] ∧ State.reset.params.r0Hardwired = true ∧
  State.reset.params.unknownEncoding = .nop ∧ State.reset.params.exitArithmetic = 0xF6 ∧
  State.reset.params.exitMemory = 0xF5 ∧ State.reset.params.exitInvalid = 0xF4 ∧
  State.reset.params.exitInternal = 0xEC ∧ State.reset.params.getcEof = 0xFFFFFFFF ∧
  State.reset.params.divOverflowHi = 0 ∧ State.reset.params.divOverflowLo = 0x80000000 ∧
  State.reset.params.lwlrMode = .mips1 ∧ State.reset.params.wf = true

/-- The state after reset meets the invariant. -/
def Obligations.ResetMeetsTheInvariant : Prop := State.reset.Inv

/-- The start of every run meets the invariant. -/
def Obligations.BootMeetsTheInvariant : Prop :=
  ∀ (p : Params) (image input : List Byte), (State.boot p image input).Inv

/-- Every step keeps the invariant: each memory stays canonical inside its segment, a hard-wired register 0 stays zero,
and the status agrees with the rest of the state. -/
def Obligations.StepKeepsTheInvariant : Prop :=
  ∀ s t : State, s.Inv → step s = .next t → t.Inv

/-- Whatever the program and the input, a run that halts reports the low byte of register 2, at the null address or at
a zero word, and a run that faults reports the exit status of its fault (R93, R103, R220). -/
def Obligations.EndedRunsReportTheirExitStatus : Prop :=
  ∀ (p : Params) (image input : List Byte) (t : State), Reaches (State.boot p image input) t →
    (∀ c, t.status = .halted c →
      t.exitStatus = some (BitVec.ofNat 8 (t.readReg 2).toNat) ∧
        (t.pc = 0 ∨ (t.pc.toNat % 4 = 0 ∧ InInstr t.pc ∧ bigEndian t.imem t.pc.toNat 4 = 0))) ∧
    (∀ k c, t.status = .faulted k c → t.exitStatus = some (Params.exitCode p k))

/-- A word placed where the next fetch reads it is the word the step fetches; the placing is the model's own stand-in
for the load, log entry 5. -/
def Obligations.PlacedWordIsFetched : Prop :=
  ∀ (s : State) (w : Nat), s.status = .running → s.pc.toNat % 4 = 0 → InInstr s.pc → Memory.wf s.imem = true →
    Fetches (s.withFetchWord 32 w) (BitVec.ofNat 32 w)

/-! ## Whole-machine rules of state (10_state, 20_memory) -/

/-- R21: a register that is written reads as the value written, and every other register as before; a hard-wired
register 0 discards writes and always reads as zero. That this is a parameter, true by default, is the spec's own
decision D1, log entry 12. -/
def Obligations.RegisterWriteThenRead : Prop :=
  Params.defaults.r0Hardwired = true ∧ (∀ p image input, (State.boot p image input).readReg 0 = 0) ∧
  ∀ (s : State) (d : RegIdx) (v : Word), WritesReg s (s.writeReg d v) d v ∧
    (s.params.r0Hardwired = true → s.readReg 0 = 0 ∧ s.writeReg 0 v = s)

/-- Only the eight multiply, divide and move instructions read or write HI and LO (R23): any other instruction does
the same whatever HI and LO hold, and leaves them as they are. -/
def Obligations.OnlyEightInstructionsUseHiLo : Prop :=
  ∀ (i : Instr) (s t : State) (h l : Word), usesHiLo i = false → exec i s = .next t →
    SameHiLo s t ∧ exec i { s with hi := h, lo := l } = .next { t with hi := h, lo := l }

/-- No instruction reads or writes instruction memory: it does the same whatever IMEM holds, and leaves it as it is. That
no store reaches it is R57's; that no load does, since data loads from IMEM fault, is the spec's own decision D11
(90_conflicts C4), log entry 12. -/
def Obligations.InstructionsNeverTouchInstructionMemory : Prop :=
  ∀ (i : Instr) (s t : State) (m : Memory), exec i s = .next t →
    t.imem = s.imem ∧ exec i { s with imem := m } = .next { t with imem := m }

/-- No step changes instruction memory or the parameters (R30, R57; the parameters are the model's field, log entry
1). -/
def Obligations.StepKeepsInstructionMemoryAndParameters : Prop :=
  ∀ s t : State, step s = .next t → t.imem = s.imem ∧ t.params = s.params

/-- Only the port accesses change the input and the output (R29): LB, LBU and LW at 0x30000000 consume one character,
SB and SW at 0x30000004 append one byte. Which loads consume a character and which byte SW emits are the spec's own
decisions D12 and D14, log entry 12. -/
def Obligations.StreamsChangeOnlyThroughThePorts : Prop :=
  ∀ (i : Instr) (s t : State), exec i s = .next t → t.input = inputAfter s i ∧ t.output = outputAfter s i

/-- Only store instructions change data memory (R30), and only the bytes they store to: every other byte reads as
before. -/
def Obligations.DataMemoryChangesOnlyWhereStored : Prop :=
  ∀ (i : Instr) (s t : State), Memory.wf s.dmem = true → exec i s = .next t → ∀ c,
    (∀ a n, storedBytes s i = some (a, n) → ¬ (a.toNat ≤ c ∧ c < a.toNat + n)) →
    Memory.read t.dmem c = Memory.read s.dmem c

/-! ## Memory accesses (20_memory) -/

/-- Which accesses each region admits (R44), at which alignment (R43); every other access raises MemoryFault. That fetch
is from IMEM only (D10), that data loads from IMEM fault (D11), and the ports' widths and neighbouring addresses (D12,
D14) are the spec's own decisions, log entry 12. -/
def Obligations.AccessPermissions : Prop :=
  ∀ (s : State) (a : Word) (n : AccessWidth) (v : Word),
    ((memRead s a n).isSome = true ↔
      (a.toNat % n.bytes = 0 ∧ InData a) ∨ (a = 0x30000000 ∧ n ≠ .half)) ∧
    ((memWrite s a n v).isSome = true ↔
      (a.toNat % n.bytes = 0 ∧ InData a) ∨ (a = 0x30000004 ∧ n ≠ .half)) ∧
    ((fetch s a).isSome = true ↔ a.toNat % 4 = 0 ∧ InInstr a)

/-- R47: in the data segment a value written with an aligned access is the value read back, for every width. -/
def Obligations.DataWriteThenReadReturnsTheValue : Prop :=
  ∀ (s : State) (a : Word) (n : AccessWidth) (v : Word), Memory.wf s.dmem = true → a.toNat % n.bytes = 0 → InData a →
    ∃ t, memWrite s a n v = some t ∧ memRead t a n = some (BitVec.ofNat 32 (v.toNat % 256 ^ n.bytes), t)

/-- The bytes and halves of a word in memory lie in big-endian order (R42). -/
def Obligations.WordIsReadByteByByteInBigEndianOrder : Prop :=
  ∀ (s : State) (a : Word) (v : Word), Memory.wf s.dmem = true → a.toNat % 4 = 0 → InData a →
    ∃ t, memWrite s a .word v = some t ∧
      (∀ k : Nat, k < 4 → memRead t (a + BitVec.ofNat 32 k) .byte =
        some (BitVec.ofNat 32 (v.toNat / 256 ^ (3 - k) % 256), t)) ∧
      memRead t a .half = some (BitVec.ofNat 32 (v.toNat / 65536), t) ∧
      memRead t (a + 2) .half = some (BitVec.ofNat 32 (v.toNat % 65536), t)

/-- R190: the effective address is the base register plus the signed offset, modulo 2^32. -/
def Obligations.EffectiveAddressWraps : Prop :=
  ∀ (s : State) (rs : RegIdx) (off : BitVec 16),
    ((effAddr s rs off).toNat : Int) = ((s.readReg rs).toNat + off.toInt) % 2 ^ 32

/-! ## Arithmetic, comparison, logic (41_arithmetic) -/

/-- R110, R111, R113, R115: ADD, SUB and ADDI end the run when the signed result is outside [-2^31, 2^31 - 1], and
else write it. -/
def Obligations.OverflowCheckedArithmetic : Prop :=
  SpecialFunct 0x20 (fun w => .add (rdOf w) (rsOf w) (rtOf w)) ∧
  SpecialFunct 0x22 (fun w => .sub (rdOf w) (rsOf w) (rtOf w)) ∧
  PrimaryOpcode 0x08 (fun w => .addi (rtOf w) (rsOf w) (immOf w)) ∧
  ∀ (s : State) (rd rs rt : RegIdx) (imm : BitVec 16),
    let a := (s.readReg rs).toInt
    let b := (s.readReg rt).toInt
    let sum := a + b
    let diff := a - b
    let isum := a + imm.toInt
    (-2 ^ 31 ≤ sum ∧ sum ≤ 2 ^ 31 - 1 → CompletesWithReg (.add rd rs rt) s rd (BitVec.ofInt 32 sum)) ∧
    (¬ (-2 ^ 31 ≤ sum ∧ sum ≤ 2 ^ 31 - 1) →
      FaultsWith (.add rd rs rt) s .arithmeticOverflow s.params.exitArithmetic) ∧
    (-2 ^ 31 ≤ diff ∧ diff ≤ 2 ^ 31 - 1 → CompletesWithReg (.sub rd rs rt) s rd (BitVec.ofInt 32 diff)) ∧
    (¬ (-2 ^ 31 ≤ diff ∧ diff ≤ 2 ^ 31 - 1) →
      FaultsWith (.sub rd rs rt) s .arithmeticOverflow s.params.exitArithmetic) ∧
    (-2 ^ 31 ≤ isum ∧ isum ≤ 2 ^ 31 - 1 → CompletesWithReg (.addi rt rs imm) s rt (BitVec.ofInt 32 isum)) ∧
    (¬ (-2 ^ 31 ≤ isum ∧ isum ≤ 2 ^ 31 - 1) →
      FaultsWith (.addi rt rs imm) s .arithmeticOverflow s.params.exitArithmetic)

/-- R112, R114, R116: ADDU, SUBU and ADDIU wrap modulo 2^32 and never fault. -/
def Obligations.WrappingArithmetic : Prop :=
  SpecialFunct 0x21 (fun w => .addu (rdOf w) (rsOf w) (rtOf w)) ∧
  SpecialFunct 0x23 (fun w => .subu (rdOf w) (rsOf w) (rtOf w)) ∧
  PrimaryOpcode 0x09 (fun w => .addiu (rtOf w) (rsOf w) (immOf w)) ∧
  ∀ (s : State) (rd rs rt : RegIdx) (imm : BitVec 16),
    let a := s.readReg rs
    let b := s.readReg rt
    CompletesWithReg (.addu rd rs rt) s rd (BitVec.ofNat 32 (a.toNat + b.toNat)) ∧
    CompletesWithReg (.subu rd rs rt) s rd (BitVec.ofInt 32 (a.toInt - b.toInt)) ∧
    CompletesWithReg (.addiu rt rs imm) s rt (BitVec.ofInt 32 (a.toInt + imm.toInt))

/-- R117 to R120: set on less than, signed and unsigned; SLTIU compares unsigned with the sign-extended immediate. -/
def Obligations.SetOnLessThan : Prop :=
  SpecialFunct 0x2A (fun w => .slt (rdOf w) (rsOf w) (rtOf w)) ∧
  SpecialFunct 0x2B (fun w => .sltu (rdOf w) (rsOf w) (rtOf w)) ∧
  PrimaryOpcode 0x0A (fun w => .slti (rtOf w) (rsOf w) (immOf w)) ∧
  PrimaryOpcode 0x0B (fun w => .sltiu (rtOf w) (rsOf w) (immOf w)) ∧
  ∀ (s : State) (rd rs rt : RegIdx) (imm : BitVec 16),
    let a := s.readReg rs
    let b := s.readReg rt
    CompletesWithReg (.slt rd rs rt) s rd (if a.toInt < b.toInt then 1 else 0) ∧
    CompletesWithReg (.sltu rd rs rt) s rd (if a.toNat < b.toNat then 1 else 0) ∧
    CompletesWithReg (.slti rt rs imm) s rt (if a.toInt < imm.toInt then 1 else 0) ∧
    CompletesWithReg (.sltiu rt rs imm) s rt (if (a.toNat : Int) < imm.toInt % 2 ^ 32 then 1 else 0)

/-- R121: LUI puts the immediate in the upper half and zeros in the lower. -/
def Obligations.LoadUpperImmediate : Prop :=
  PrimaryOpcode 0x0F (fun w => .lui (rtOf w) (immOf w)) ∧
  ∀ (s : State) (rt : RegIdx) (imm : BitVec 16),
    CompletesWithReg (.lui rt imm) s rt (BitVec.ofNat 32 (imm.toNat * 2 ^ 16))

/-- R122 to R127: the logical instructions, bit by bit; the immediate is zero-extended. That the core has them is the
spec's own decision D3, from general knowledge, log entry 12. -/
def Obligations.LogicBitByBit : Prop :=
  SpecialFunct 0x24 (fun w => .and (rdOf w) (rsOf w) (rtOf w)) ∧
  SpecialFunct 0x25 (fun w => .or (rdOf w) (rsOf w) (rtOf w)) ∧
  SpecialFunct 0x26 (fun w => .xor (rdOf w) (rsOf w) (rtOf w)) ∧
  PrimaryOpcode 0x0C (fun w => .andi (rtOf w) (rsOf w) (immOf w)) ∧
  PrimaryOpcode 0x0D (fun w => .ori (rtOf w) (rsOf w) (immOf w)) ∧
  PrimaryOpcode 0x0E (fun w => .xori (rtOf w) (rsOf w) (immOf w)) ∧
  ∀ (s : State) (rd rs rt : RegIdx) (imm : BitVec 16),
    let a := s.readReg rs
    let b := s.readReg rt
    (∃ v, CompletesWithReg (.and rd rs rt) s rd v ∧ ∀ k < 32, v.getLsbD k = (a.getLsbD k && b.getLsbD k)) ∧
    (∃ v, CompletesWithReg (.or rd rs rt) s rd v ∧ ∀ k < 32, v.getLsbD k = (a.getLsbD k || b.getLsbD k)) ∧
    (∃ v, CompletesWithReg (.xor rd rs rt) s rd v ∧ ∀ k < 32, v.getLsbD k = (a.getLsbD k != b.getLsbD k)) ∧
    (∃ v, CompletesWithReg (.andi rt rs imm) s rt v ∧
      ∀ k < 32, v.getLsbD k = (decide (k < 16) && (a.getLsbD k && imm.getLsbD k))) ∧
    (∃ v, CompletesWithReg (.ori rt rs imm) s rt v ∧
      ∀ k < 32, v.getLsbD k = (a.getLsbD k || (decide (k < 16) && imm.getLsbD k))) ∧
    (∃ v, CompletesWithReg (.xori rt rs imm) s rt v ∧
      ∀ k < 32, v.getLsbD k = (a.getLsbD k != (decide (k < 16) && imm.getLsbD k)))

/-! ## Multiply, divide, HI/LO (42_multiply_divide) -/

/-- R140, R141: the 64-bit product, its upper half in HI and its lower half in LO. -/
def Obligations.MultiplyGivesTheFullProduct : Prop :=
  SpecialFunct 0x18 (fun w => .mult (rsOf w) (rtOf w)) ∧
  SpecialFunct 0x19 (fun w => .multu (rsOf w) (rtOf w)) ∧
  ∀ (s : State) (rs rt : RegIdx),
    let a := s.readReg rs
    let b := s.readReg rt
    CompletesWithHiLo (.mult rs rt) s (fun hi lo => hi.toInt * 2 ^ 32 + lo.toNat = a.toInt * b.toInt) ∧
    CompletesWithHiLo (.multu rs rt) s (fun hi lo => hi.toNat * 2 ^ 32 + lo.toNat = a.toNat * b.toNat)

/-- R142: DIV truncates toward zero; a zero divisor changes neither HI nor LO; 0x80000000 / 0xFFFFFFFF gives
DIV_OVERFLOW_RESULT, by default (0x00000000, 0x80000000). The rounding and the parameter are the spec's own decisions
D16 and D17, log entry 12. -/
def Obligations.SignedDivide : Prop :=
  Params.defaults.divOverflowHi = 0x00000000 ∧ Params.defaults.divOverflowLo = 0x80000000 ∧
  SpecialFunct 0x1A (fun w => .div (rsOf w) (rtOf w)) ∧
  ∀ (s : State) (rs rt : RegIdx),
    let a := s.readReg rs
    let b := s.readReg rt
    (b = 0 → CompletesWithHiLo (.div rs rt) s (fun hi lo => hi = s.hi ∧ lo = s.lo)) ∧
    (a = 0x80000000 → b = 0xFFFFFFFF →
      CompletesWithHiLo (.div rs rt) s (fun hi lo => hi = s.params.divOverflowHi ∧ lo = s.params.divOverflowLo)) ∧
    (b ≠ 0 → ¬ (a = 0x80000000 ∧ b = 0xFFFFFFFF) →
      CompletesWithHiLo (.div rs rt) s
        (fun hi lo => lo.toInt = a.toInt.tdiv b.toInt ∧ hi.toInt = a.toInt - b.toInt * a.toInt.tdiv b.toInt))

/-- R143: DIVU divides unsigned; a zero divisor changes neither HI nor LO. -/
def Obligations.UnsignedDivide : Prop :=
  SpecialFunct 0x1B (fun w => .divu (rsOf w) (rtOf w)) ∧
  ∀ (s : State) (rs rt : RegIdx),
    let a := s.readReg rs
    let b := s.readReg rt
    (b = 0 → CompletesWithHiLo (.divu rs rt) s (fun hi lo => hi = s.hi ∧ lo = s.lo)) ∧
    (b ≠ 0 → CompletesWithHiLo (.divu rs rt) s
      (fun hi lo => lo.toNat * b.toNat + hi.toNat = a.toNat ∧ hi.toNat < b.toNat))

/-- R144 to R147: the moves from and to HI and LO, which the core has by the spec's own decision D3, log entry 12. -/
def Obligations.HiLoMoves : Prop :=
  SpecialFunct 0x10 (fun w => .mfhi (rdOf w)) ∧ SpecialFunct 0x12 (fun w => .mflo (rdOf w)) ∧
  SpecialFunct 0x11 (fun w => .mthi (rsOf w)) ∧ SpecialFunct 0x13 (fun w => .mtlo (rsOf w)) ∧
  ∀ (s : State) (r : RegIdx),
    CompletesWithReg (.mfhi r) s r s.hi ∧ CompletesWithReg (.mflo r) s r s.lo ∧
    CompletesWithHiLo (.mthi r) s (fun hi lo => hi = s.readReg r ∧ lo = s.lo) ∧
    CompletesWithHiLo (.mtlo r) s (fun hi lo => hi = s.hi ∧ lo = s.readReg r)

/-! ## Shifts (43_shift) -/

/-- R150 to R152: the shifts by a constant, bit by bit: zeros come in, and for SRA copies of bit 31. That T is the value
shifted is the spec's general knowledge (43_shift, opening), log entry 12. -/
def Obligations.ConstantShiftsBitByBit : Prop :=
  SpecialFunct 0x00 (fun w => .sll (rdOf w) (rtOf w) (shamtOf w)) ∧
  SpecialFunct 0x02 (fun w => .srl (rdOf w) (rtOf w) (shamtOf w)) ∧
  SpecialFunct 0x03 (fun w => .sra (rdOf w) (rtOf w) (shamtOf w)) ∧
  ∀ (s : State) (rd rt : RegIdx) (sa : BitVec 5),
    let x := s.readReg rt
    let n := sa.toNat
    (∃ v, CompletesWithReg (.sll rd rt sa) s rd v ∧
      ∀ k < 32, v.getLsbD k = (decide (n ≤ k) && x.getLsbD (k - n))) ∧
    (∃ v, CompletesWithReg (.srl rd rt sa) s rd v ∧
      ∀ k < 32, v.getLsbD k = (decide (k + n < 32) && x.getLsbD (k + n))) ∧
    (∃ v, CompletesWithReg (.sra rd rt sa) s rd v ∧
      ∀ k < 32, v.getLsbD k = if k + n < 32 then x.getLsbD (k + n) else x.getLsbD 31)

/-- R153 to R155: the shifts by a register shift by its low 5 bits. That T is the value shifted is the spec's general
knowledge (43_shift, opening), log entry 12. -/
def Obligations.VariableShiftsBitByBit : Prop :=
  SpecialFunct 0x04 (fun w => .sllv (rdOf w) (rtOf w) (rsOf w)) ∧
  SpecialFunct 0x06 (fun w => .srlv (rdOf w) (rtOf w) (rsOf w)) ∧
  SpecialFunct 0x07 (fun w => .srav (rdOf w) (rtOf w) (rsOf w)) ∧
  ∀ (s : State) (rd rt rs : RegIdx),
    let x := s.readReg rt
    let n := (s.readReg rs).toNat % 32
    (∃ v, CompletesWithReg (.sllv rd rt rs) s rd v ∧
      ∀ k < 32, v.getLsbD k = (decide (n ≤ k) && x.getLsbD (k - n))) ∧
    (∃ v, CompletesWithReg (.srlv rd rt rs) s rd v ∧
      ∀ k < 32, v.getLsbD k = (decide (k + n < 32) && x.getLsbD (k + n))) ∧
    (∃ v, CompletesWithReg (.srav rd rt rs) s rd v ∧
      ∀ k < 32, v.getLsbD k = if k + n < 32 then x.getLsbD (k + n) else x.getLsbD 31)

/-! ## Branches and jumps (44_branch, 45_jump) -/

/-- R160: the branch target is `npc` plus four times the signed offset, modulo 2^32: word-aligned when `npc` is, within
[npc - 0x20000, npc + 0x1FFFC], the branch itself for 0xFFFF outside a delay slot. That with offset 0 a taken branch
makes its delay slot run twice is the spec's own inference from R96 and R97. -/
def Obligations.BranchTargetIsRelativeToTheDelaySlot : Prop :=
  ∀ (s : State) (off : BitVec 16),
    (∃ d : Int, d = 4 * off.toInt ∧ -0x20000 ≤ d ∧ d ≤ 0x1FFFC ∧
      ((branchTarget s off).toNat : Int) = (s.npc.toNat + d) % 2 ^ 32) ∧
    (s.npc.toNat % 4 = 0 → (branchTarget s off).toNat % 4 = 0) ∧
    (s.npc = s.pc + 4 → branchTarget s 0xFFFF = s.pc) ∧
    ∀ r, ∃ t, exec (.beq r r 0) s = .next t ∧ t.pc = s.npc ∧ t.npc = s.npc

/-- R161, R162: BEQ and BNE. -/
def Obligations.EqualityBranchesRedirect : Prop :=
  PrimaryOpcode 0x04 (fun w => .beq (rsOf w) (rtOf w) (immOf w)) ∧
  PrimaryOpcode 0x05 (fun w => .bne (rsOf w) (rtOf w) (immOf w)) ∧
  ∀ (s : State) (rs rt : RegIdx) (off : BitVec 16),
    CompletesWithFlow (.beq rs rt off) s (destIf (s.readReg rs = s.readReg rt) s off) ∧
    CompletesWithFlow (.bne rs rt off) s (destIf (s.readReg rs ≠ s.readReg rt) s off)

/-- R163 to R166: the branches on the sign of a register. -/
def Obligations.SignBranchesRedirect : Prop :=
  PrimaryOpcode 0x06 (fun w => .blez (rsOf w) (immOf w)) ∧ PrimaryOpcode 0x07 (fun w => .bgtz (rsOf w) (immOf w)) ∧
  BranchDiscriminator 0x00 (fun w => .bltz (rsOf w) (immOf w)) ∧
  BranchDiscriminator 0x01 (fun w => .bgez (rsOf w) (immOf w)) ∧
  ∀ (s : State) (rs : RegIdx) (off : BitVec 16),
    CompletesWithFlow (.blez rs off) s (destIf ((s.readReg rs).toInt ≤ 0) s off) ∧
    CompletesWithFlow (.bgtz rs off) s (destIf ((s.readReg rs).toInt > 0) s off) ∧
    CompletesWithFlow (.bltz rs off) s (destIf ((s.readReg rs).toInt < 0) s off) ∧
    CompletesWithFlow (.bgez rs off) s (destIf ((s.readReg rs).toInt ≥ 0) s off)

/-- R167, R168: the linking branches write the link whether or not they are taken, and test the register as it was
before the link, register 31 too: the spec's own decisions D18 and D19, log entry 12. -/
def Obligations.LinkingBranchesAlwaysLink : Prop :=
  BranchDiscriminator 0x10 (fun w => .bltzal (rsOf w) (immOf w)) ∧
  BranchDiscriminator 0x11 (fun w => .bgezal (rsOf w) (immOf w)) ∧
  ∀ (s : State) (rs : RegIdx) (off : BitVec 16),
    CompletesWithLink (.bltzal rs off) s 31 (destIf ((s.readReg rs).toInt < 0) s off) ∧
    CompletesWithLink (.bgezal rs off) s 31 (destIf ((s.readReg rs).toInt ≥ 0) s off)

/-- R180: the jump target is the upper four bits of the jump's own pc, the index, and two zero bits; for a jump that can
be fetched these are also the upper four bits of its delay slot's address, and the target lies in the region 0x1. That
the pc is the jump's own is the spec's own decision D23, log entry 12. -/
def Obligations.JumpTargetKeepsTheUpperBitsOfPc : Prop :=
  ∀ (s : State) (index : BitVec 26),
    (∀ k < 4, (jumpTarget s index).getLsbD (28 + k) = s.pc.getLsbD (28 + k)) ∧
    (∀ k < 26, (jumpTarget s index).getLsbD (2 + k) = index.getLsbD k) ∧
    (∀ k < 2, (jumpTarget s index).getLsbD k = false) ∧
    (s.pc.toNat % 4 = 0 → InInstr s.pc →
      (∀ k < 4, s.pc.getLsbD (28 + k) = (s.pc + 4).getLsbD (28 + k)) ∧ (jumpTarget s index).toNat / 2 ^ 28 = 1)

/-- R181, R182: J and JAL. That their target takes the upper bits of the jump's own pc (R180) is the spec's own decision
D23, log entry 12. -/
def Obligations.AbsoluteJumpsRedirect : Prop :=
  PrimaryOpcode 0x02 (fun w => .j (indexOf w)) ∧ PrimaryOpcode 0x03 (fun w => .jal (indexOf w)) ∧
  ∀ (s : State) (index : BitVec 26),
    CompletesWithFlow (.j index) s (some (jumpDest s index)) ∧
    CompletesWithLink (.jal index) s 31 (some (jumpDest s index))

/-- R183, R184: JR and JALR; JALR reads its target before it writes the link (the spec's own decision D19), and neither
checks it (D26), log entry 12. -/
def Obligations.RegisterJumpsRedirect : Prop :=
  SpecialFunct 0x08 (fun w => .jr (rsOf w)) ∧ SpecialFunct 0x09 (fun w => .jalr (rdOf w) (rsOf w)) ∧
  ∀ (s : State) (rd rs : RegIdx),
    CompletesWithFlow (.jr rs) s (some (s.readReg rs)) ∧
    CompletesWithLink (.jalr rd rs) s rd (some (s.readReg rs))

/-- The call and return of R185: after JAL, or JALR into a register `r` that keeps what is written, at A outside a delay
slot, a later JR through `r`, with `r` unchanged, makes A + 8 the instruction after its own delay slot. -/
def Obligations.CallThenReturn : Prop :=
  ∀ (s t u v : State) (r : RegIdx) (i : Instr),
    (∃ index, i = .jal index ∧ r = 31) ∨ (∃ rs, i = .jalr r rs ∧ ¬ (r = 0 ∧ s.params.r0Hardwired = true)) →
    s.npc = s.pc + 4 → exec i s = .next t → u.readReg r = t.readReg r → exec (.jr r) u = .next v →
    v.pc = u.npc ∧ v.npc = s.pc + 8

/-! ## Loads and stores (46_load_store) -/

/-- R191 to R195: the five loads, from the data segment and from the input port, and the addresses at which they
fault. What the port admits and gives (D12, D13), and that loads from IMEM fault (D11), are the spec's own decisions,
log entry 12. -/
def Obligations.LoadsReadDataOrInputOrFault : Prop :=
  PrimaryOpcode 0x20 (fun w => .lb (rtOf w) (rsOf w) (immOf w)) ∧
  PrimaryOpcode 0x24 (fun w => .lbu (rtOf w) (rsOf w) (immOf w)) ∧
  PrimaryOpcode 0x21 (fun w => .lh (rtOf w) (rsOf w) (immOf w)) ∧
  PrimaryOpcode 0x25 (fun w => .lhu (rtOf w) (rsOf w) (immOf w)) ∧
  PrimaryOpcode 0x23 (fun w => .lw (rtOf w) (rsOf w) (immOf w)) ∧
  ∀ (s : State) (rt rs : RegIdx) (off : BitVec 16),
    LoadBehaves (.lb rt rs off) s 1 (fun v => BitVec.ofInt 32 (BitVec.ofNat 8 v.toNat).toInt) rt rs off ∧
    LoadBehaves (.lbu rt rs off) s 1 (fun v => BitVec.ofNat 32 (v.toNat % 2 ^ 8)) rt rs off ∧
    LoadBehaves (.lh rt rs off) s 2 (fun v => BitVec.ofInt 32 (BitVec.ofNat 16 v.toNat).toInt) rt rs off ∧
    LoadBehaves (.lhu rt rs off) s 2 (fun v => BitVec.ofNat 32 (v.toNat % 2 ^ 16)) rt rs off ∧
    LoadBehaves (.lw rt rs off) s 4 (fun v => v) rt rs off

/-- R196, R197: LWL and LWR by the lane tables of mips1, or by the uninterpreted functions, and the addresses at which
they fault. The lanes and the parameter are the spec's own decision D20, log entry 12; the result under `opaque` is a
free value (log entry 7), and the statement holds whatever it is. -/
def Obligations.MergingLoadsFollowTheLanesOrFault : Prop :=
  PrimaryOpcode 0x22 (fun w => .lwl (rtOf w) (rsOf w) (immOf w)) ∧
  PrimaryOpcode 0x26 (fun w => .lwr (rtOf w) (rsOf w) (immOf w)) ∧
  ∀ (s : State) (rt rs : RegIdx) (off : BitVec 16),
    MergeBehaves (.lwl rt rs off) s lwlLanes Config.lwlF rt rs off ∧
    MergeBehaves (.lwr rt rs off) s lwrLanes Config.lwrF rt rs off

/-- The unaligned load of R198: under mips1, LWL at `a` and then LWR at `a + 3` leave the four bytes from `a` on in the
register, whatever it held before. -/
def Obligations.UnalignedLoadPair : Prop :=
  ∀ (s : State) (rt rs : RegIdx) (off : BitVec 16),
    s.params.lwlrMode = .mips1 → ¬ (rt = 0 ∧ s.params.r0Hardwired = true) →
    InData (effAddr s rs off) → InData (effAddr s rs off + 3) →
    ∃ t, exec (.lwl rt rs off) s = .next t ∧
      ∀ (rs' : RegIdx) (off' : BitVec 16), effAddr t rs' off' = effAddr s rs off + 3 →
        ∃ u, exec (.lwr rt rs' off') t = .next u ∧
          u.readReg rt = BitVec.ofNat 32 (bigEndian s.dmem (effAddr s rs off).toNat 4)

/-- R199 to R201: the three stores, to the data segment and to the output port, and the addresses at which they
fault. The byte SW emits and the port's widths are the spec's own decision D14, log entry 12. -/
def Obligations.StoresWriteDataOrOutputOrFault : Prop :=
  PrimaryOpcode 0x28 (fun w => .sb (rtOf w) (rsOf w) (immOf w)) ∧
  PrimaryOpcode 0x29 (fun w => .sh (rtOf w) (rsOf w) (immOf w)) ∧
  PrimaryOpcode 0x2B (fun w => .sw (rtOf w) (rsOf w) (immOf w)) ∧
  ∀ (s : State) (rt rs : RegIdx) (off : BitVec 16),
    StoreBehaves (.sb rt rs off) s 1 rt rs off ∧ StoreBehaves (.sh rt rs off) s 2 rt rs off ∧
    StoreBehaves (.sw rt rs off) s 4 rt rs off
end

