-- ==== Sys2Proof/Laws/Decode.lean ====
section
/-! SUPPORT. The fields of an encoded word, and a word as the sum of its fields. -/

namespace Sys2Proof

section Fields
variable (rs rt rd shamt : BitVec 5) (op funct : BitVec 6) (imm : BitVec 16) (index : BitVec 26)

@[simp] theorem opcodeOf_encodeR : opcodeOf (encodeR rs rt rd shamt funct) = 0 := by
  unfold opcodeOf encodeR; ext k hk; simp; grind
@[simp] theorem rsOf_encodeR : rsOf (encodeR rs rt rd shamt funct) = rs := by
  unfold rsOf encodeR; ext k hk; simp; grind
@[simp] theorem rtOf_encodeR : rtOf (encodeR rs rt rd shamt funct) = rt := by
  unfold rtOf encodeR; ext k hk; simp; grind
@[simp] theorem rdOf_encodeR : rdOf (encodeR rs rt rd shamt funct) = rd := by
  unfold rdOf encodeR; ext k hk; simp; grind
@[simp] theorem shamtOf_encodeR : shamtOf (encodeR rs rt rd shamt funct) = shamt := by
  unfold shamtOf encodeR; ext k hk; simp; grind
@[simp] theorem functOf_encodeR : functOf (encodeR rs rt rd shamt funct) = funct := by
  unfold functOf encodeR; ext k hk; simp; grind

@[simp] theorem opcodeOf_encodeI : opcodeOf (encodeI op rs rt imm) = op := by
  unfold opcodeOf encodeI; ext k hk; simp; grind
@[simp] theorem rsOf_encodeI : rsOf (encodeI op rs rt imm) = rs := by
  unfold rsOf encodeI; ext k hk; simp; grind
@[simp] theorem rtOf_encodeI : rtOf (encodeI op rs rt imm) = rt := by
  unfold rtOf encodeI; ext k hk; simp; grind
@[simp] theorem immOf_encodeI : immOf (encodeI op rs rt imm) = imm := by
  unfold immOf encodeI; ext k hk; simp; grind

theorem encodeB_eq_encodeI : encodeB rs rt imm = encodeI 0x01 rs rt imm := rfl

@[simp] theorem opcodeOf_encodeJ : opcodeOf (encodeJ op index) = op := by
  unfold opcodeOf encodeJ; ext k hk; simp; grind
@[simp] theorem indexOf_encodeJ : indexOf (encodeJ op index) = index := by
  unfold indexOf encodeJ; ext k hk; simp; grind

end Fields

/-- A word whose primary opcode or function code is not zero is not the zero word. -/
theorem ne_zero_of_opcode {w : Word} (h : opcodeOf w ≠ 0) : w ≠ 0 := fun h0 => h (by rw [h0]; rfl)
theorem ne_zero_of_funct {w : Word} (h : functOf w ≠ 0) : w ≠ 0 := fun h0 => h (by rw [h0]; rfl)

/-- A word is its R-type fields. -/
theorem word_eq_fieldsR (w : Word) :
    w = (opcodeOf w ++ rsOf w ++ rtOf w ++ rdOf w ++ shamtOf w ++ functOf w : BitVec 32) := by
  unfold opcodeOf rsOf rtOf rdOf shamtOf functOf; ext k hk; simp; grind

/-- A word is its I-type fields. -/
theorem word_eq_fieldsI (w : Word) : w = encodeI (opcodeOf w) (rsOf w) (rtOf w) (immOf w) := by
  unfold opcodeOf rsOf rtOf immOf encodeI; ext k hk; simp; grind

/-- A word is its J-type fields. -/
theorem word_eq_fieldsJ (w : Word) : w = encodeJ (opcodeOf w) (indexOf w) := by
  unfold opcodeOf indexOf encodeJ; ext k hk; simp; grind

/-- A SPECIAL word is its fields. -/
theorem word_eq_encodeR {w : Word} (h : opcodeOf w = 0) :
    w = encodeR (rsOf w) (rtOf w) (rdOf w) (shamtOf w) (functOf w) := by
  conv_lhs => rw [word_eq_fieldsR w, h]
  rfl

/-! ### The bits of a word's format under a mask -/

theorem encodeR_and (rs rt rd shamt : BitVec 5) (funct : BitVec 6) (rs' rt' rd' shamt' : BitVec 5)
    (funct' op' : BitVec 6) :
    encodeR rs rt rd shamt funct &&& (op' ++ rs' ++ rt' ++ rd' ++ shamt' ++ funct' : BitVec 32) =
      encodeR (rs &&& rs') (rt &&& rt') (rd &&& rd') (shamt &&& shamt') (funct &&& funct') := by
  unfold encodeR; ext k hk; simp; grind

theorem encodeI_and (op : BitVec 6) (rs rt : BitVec 5) (imm : BitVec 16) (op' : BitVec 6) (rs' rt' : BitVec 5)
    (imm' : BitVec 16) :
    encodeI op rs rt imm &&& encodeI op' rs' rt' imm' = encodeI (op &&& op') (rs &&& rs') (rt &&& rt') (imm &&& imm') := by
  unfold encodeI; ext k hk; simp; grind

theorem encodeJ_and (op op' : BitVec 6) (index index' : BitVec 26) :
    encodeJ op index &&& encodeJ op' index' = encodeJ (op &&& op') (index &&& index') := by
  unfold encodeJ; ext k hk; simp; grind

/-- A word agrees with R-type values under an R-type mask exactly when each of its fields does. -/
theorem fieldsR_and_eq_iff (w : Word) (op op' : BitVec 6) (rs rs' rt rt' rd rd' sa sa' : BitVec 5)
    (fn fn' : BitVec 6) :
    w &&& (op' ++ rs' ++ rt' ++ rd' ++ sa' ++ fn' : BitVec 32) = (op ++ rs ++ rt ++ rd ++ sa ++ fn : BitVec 32) ↔
      opcodeOf w &&& op' = op ∧ rsOf w &&& rs' = rs ∧ rtOf w &&& rt' = rt ∧ rdOf w &&& rd' = rd ∧
        shamtOf w &&& sa' = sa ∧ functOf w &&& fn' = fn := by
  constructor
  · intro h
    have hb : ∀ k, k < 32 → _ := fun k _ => congrArg (fun x : BitVec 32 => x.getLsbD k) h
    refine ⟨?_, ?_, ?_, ?_, ?_, ?_⟩
    · ext k hk; have := hb (k + 26) (by omega); simp [opcodeOf] at this ⊢; grind
    · ext k hk; have := hb (k + 21) (by omega); simp [rsOf] at this ⊢; grind
    · ext k hk; have := hb (k + 16) (by omega); simp [rtOf] at this ⊢; grind
    · ext k hk; have := hb (k + 11) (by omega); simp [rdOf] at this ⊢; grind
    · ext k hk; have := hb (k + 6) (by omega); simp [shamtOf] at this ⊢; grind
    · ext k hk; have := hb k (by omega); simp [functOf] at this ⊢; grind
  · rintro ⟨rfl, rfl, rfl, rfl, rfl, rfl⟩
    unfold opcodeOf rsOf rtOf rdOf shamtOf functOf; ext k hk; simp; grind

/-- A word agrees with I-type values under an I-type mask exactly when each of its fields does. -/
theorem fieldsI_and_eq_iff (w : Word) (op op' : BitVec 6) (rs rs' rt rt' : BitVec 5) (imm imm' : BitVec 16) :
    w &&& encodeI op' rs' rt' imm' = encodeI op rs rt imm ↔
      opcodeOf w &&& op' = op ∧ rsOf w &&& rs' = rs ∧ rtOf w &&& rt' = rt ∧ immOf w &&& imm' = imm := by
  constructor
  · intro h
    have hb : ∀ k, k < 32 → _ := fun k _ => congrArg (fun x : BitVec 32 => x.getLsbD k) h
    refine ⟨?_, ?_, ?_, ?_⟩
    · ext k hk; have := hb (k + 26) (by omega); simp [opcodeOf, encodeI] at this ⊢; grind
    · ext k hk; have := hb (k + 21) (by omega); simp [rsOf, encodeI] at this ⊢; grind
    · ext k hk; have := hb (k + 16) (by omega); simp [rtOf, encodeI] at this ⊢; grind
    · ext k hk; have := hb k (by omega); simp [immOf, encodeI] at this ⊢; grind
  · rintro ⟨rfl, rfl, rfl, rfl⟩
    unfold opcodeOf rsOf rtOf immOf encodeI; ext k hk; simp; grind

end Sys2Proof
end

