-- ==== Sys2Proof/Laws/State.lean ====
section
/-! SUPPORT. What each named update of the state does to each field of it, so that no later proof unfolds an update. -/

namespace Sys2Proof.Machine

section Fields
variable (s : State)

/-! ### `writeReg` changes `regs` alone -/

@[simp] theorem State.writeReg_hi (d : RegIdx) (v : Word) : (s.writeReg d v).hi = s.hi := by
  unfold State.writeReg; split <;> rfl
@[simp] theorem State.writeReg_lo (d : RegIdx) (v : Word) : (s.writeReg d v).lo = s.lo := by
  unfold State.writeReg; split <;> rfl
@[simp] theorem State.writeReg_pc (d : RegIdx) (v : Word) : (s.writeReg d v).pc = s.pc := by
  unfold State.writeReg; split <;> rfl
@[simp] theorem State.writeReg_npc (d : RegIdx) (v : Word) : (s.writeReg d v).npc = s.npc := by
  unfold State.writeReg; split <;> rfl
@[simp] theorem State.writeReg_imem (d : RegIdx) (v : Word) : (s.writeReg d v).imem = s.imem := by
  unfold State.writeReg; split <;> rfl
@[simp] theorem State.writeReg_dmem (d : RegIdx) (v : Word) : (s.writeReg d v).dmem = s.dmem := by
  unfold State.writeReg; split <;> rfl
@[simp] theorem State.writeReg_input (d : RegIdx) (v : Word) : (s.writeReg d v).input = s.input := by
  unfold State.writeReg; split <;> rfl
@[simp] theorem State.writeReg_output (d : RegIdx) (v : Word) : (s.writeReg d v).output = s.output := by
  unfold State.writeReg; split <;> rfl
@[simp] theorem State.writeReg_status (d : RegIdx) (v : Word) : (s.writeReg d v).status = s.status := by
  unfold State.writeReg; split <;> rfl
@[simp] theorem State.writeReg_params (d : RegIdx) (v : Word) : (s.writeReg d v).params = s.params := by
  unfold State.writeReg; split <;> rfl

theorem State.writeReg_regs (d : RegIdx) (v : Word) :
    (s.writeReg d v).regs = if s.isHardwired d then s.regs else s.regs.set d.toNat v d.isLt := by
  unfold State.writeReg; split <;> rfl

@[simp] theorem State.writeReg_isHardwired (d r : RegIdx) (v : Word) :
    (s.writeReg d v).isHardwired r = s.isHardwired r := by
  simp [State.isHardwired]

/-! ### `writeHiLo` -/

@[simp] theorem State.writeHiLo_regs (h l : Word) : (s.writeHiLo h l).regs = s.regs := rfl
@[simp] theorem State.writeHiLo_hi (h l : Word) : (s.writeHiLo h l).hi = h := rfl
@[simp] theorem State.writeHiLo_lo (h l : Word) : (s.writeHiLo h l).lo = l := rfl
@[simp] theorem State.writeHiLo_pc (h l : Word) : (s.writeHiLo h l).pc = s.pc := rfl
@[simp] theorem State.writeHiLo_npc (h l : Word) : (s.writeHiLo h l).npc = s.npc := rfl
@[simp] theorem State.writeHiLo_imem (h l : Word) : (s.writeHiLo h l).imem = s.imem := rfl
@[simp] theorem State.writeHiLo_dmem (h l : Word) : (s.writeHiLo h l).dmem = s.dmem := rfl
@[simp] theorem State.writeHiLo_input (h l : Word) : (s.writeHiLo h l).input = s.input := rfl
@[simp] theorem State.writeHiLo_output (h l : Word) : (s.writeHiLo h l).output = s.output := rfl
@[simp] theorem State.writeHiLo_status (h l : Word) : (s.writeHiLo h l).status = s.status := rfl
@[simp] theorem State.writeHiLo_params (h l : Word) : (s.writeHiLo h l).params = s.params := rfl
@[simp] theorem State.writeHiLo_readReg (h l : Word) (r : RegIdx) : (s.writeHiLo h l).readReg r = s.readReg r := rfl

/-! ### `writeHi` -/

@[simp] theorem State.writeHi_regs (h : Word) : (s.writeHi h).regs = s.regs := rfl
@[simp] theorem State.writeHi_hi (h : Word) : (s.writeHi h).hi = h := rfl
@[simp] theorem State.writeHi_lo (h : Word) : (s.writeHi h).lo = s.lo := rfl
@[simp] theorem State.writeHi_pc (h : Word) : (s.writeHi h).pc = s.pc := rfl
@[simp] theorem State.writeHi_npc (h : Word) : (s.writeHi h).npc = s.npc := rfl
@[simp] theorem State.writeHi_imem (h : Word) : (s.writeHi h).imem = s.imem := rfl
@[simp] theorem State.writeHi_dmem (h : Word) : (s.writeHi h).dmem = s.dmem := rfl
@[simp] theorem State.writeHi_input (h : Word) : (s.writeHi h).input = s.input := rfl
@[simp] theorem State.writeHi_output (h : Word) : (s.writeHi h).output = s.output := rfl
@[simp] theorem State.writeHi_status (h : Word) : (s.writeHi h).status = s.status := rfl
@[simp] theorem State.writeHi_params (h : Word) : (s.writeHi h).params = s.params := rfl
@[simp] theorem State.writeHi_readReg (h : Word) (r : RegIdx) : (s.writeHi h).readReg r = s.readReg r := rfl

/-! ### `writeLo` -/

@[simp] theorem State.writeLo_regs (l : Word) : (s.writeLo l).regs = s.regs := rfl
@[simp] theorem State.writeLo_hi (l : Word) : (s.writeLo l).hi = s.hi := rfl
@[simp] theorem State.writeLo_lo (l : Word) : (s.writeLo l).lo = l := rfl
@[simp] theorem State.writeLo_pc (l : Word) : (s.writeLo l).pc = s.pc := rfl
@[simp] theorem State.writeLo_npc (l : Word) : (s.writeLo l).npc = s.npc := rfl
@[simp] theorem State.writeLo_imem (l : Word) : (s.writeLo l).imem = s.imem := rfl
@[simp] theorem State.writeLo_dmem (l : Word) : (s.writeLo l).dmem = s.dmem := rfl
@[simp] theorem State.writeLo_input (l : Word) : (s.writeLo l).input = s.input := rfl
@[simp] theorem State.writeLo_output (l : Word) : (s.writeLo l).output = s.output := rfl
@[simp] theorem State.writeLo_status (l : Word) : (s.writeLo l).status = s.status := rfl
@[simp] theorem State.writeLo_params (l : Word) : (s.writeLo l).params = s.params := rfl
@[simp] theorem State.writeLo_readReg (l : Word) (r : RegIdx) : (s.writeLo l).readReg r = s.readReg r := rfl

/-! ### `seq` -/

@[simp] theorem State.seq_regs : s.seq.regs = s.regs := rfl
@[simp] theorem State.seq_hi : s.seq.hi = s.hi := rfl
@[simp] theorem State.seq_lo : s.seq.lo = s.lo := rfl
@[simp] theorem State.seq_pc : s.seq.pc = s.npc := rfl
@[simp] theorem State.seq_npc : s.seq.npc = s.npc + 4 := rfl
@[simp] theorem State.seq_imem : s.seq.imem = s.imem := rfl
@[simp] theorem State.seq_dmem : s.seq.dmem = s.dmem := rfl
@[simp] theorem State.seq_input : s.seq.input = s.input := rfl
@[simp] theorem State.seq_output : s.seq.output = s.output := rfl
@[simp] theorem State.seq_status : s.seq.status = s.status := rfl
@[simp] theorem State.seq_params : s.seq.params = s.params := rfl
@[simp] theorem State.seq_readReg (r : RegIdx) : s.seq.readReg r = s.readReg r := rfl

/-! ### `redirect` -/

@[simp] theorem State.redirect_regs (t : Word) : (s.redirect t).regs = s.regs := rfl
@[simp] theorem State.redirect_hi (t : Word) : (s.redirect t).hi = s.hi := rfl
@[simp] theorem State.redirect_lo (t : Word) : (s.redirect t).lo = s.lo := rfl
@[simp] theorem State.redirect_pc (t : Word) : (s.redirect t).pc = s.npc := rfl
@[simp] theorem State.redirect_npc (t : Word) : (s.redirect t).npc = t := rfl
@[simp] theorem State.redirect_imem (t : Word) : (s.redirect t).imem = s.imem := rfl
@[simp] theorem State.redirect_dmem (t : Word) : (s.redirect t).dmem = s.dmem := rfl
@[simp] theorem State.redirect_input (t : Word) : (s.redirect t).input = s.input := rfl
@[simp] theorem State.redirect_output (t : Word) : (s.redirect t).output = s.output := rfl
@[simp] theorem State.redirect_status (t : Word) : (s.redirect t).status = s.status := rfl
@[simp] theorem State.redirect_params (t : Word) : (s.redirect t).params = s.params := rfl
@[simp] theorem State.redirect_readReg (t : Word) (r : RegIdx) : (s.redirect t).readReg r = s.readReg r := rfl

/-! ### `raise` -/

@[simp] theorem State.raise_regs (k : FaultKind) : (s.raise k).regs = s.regs := rfl
@[simp] theorem State.raise_hi (k : FaultKind) : (s.raise k).hi = s.hi := rfl
@[simp] theorem State.raise_lo (k : FaultKind) : (s.raise k).lo = s.lo := rfl
@[simp] theorem State.raise_pc (k : FaultKind) : (s.raise k).pc = s.pc := rfl
@[simp] theorem State.raise_npc (k : FaultKind) : (s.raise k).npc = s.npc := rfl
@[simp] theorem State.raise_imem (k : FaultKind) : (s.raise k).imem = s.imem := rfl
@[simp] theorem State.raise_dmem (k : FaultKind) : (s.raise k).dmem = s.dmem := rfl
@[simp] theorem State.raise_input (k : FaultKind) : (s.raise k).input = s.input := rfl
@[simp] theorem State.raise_output (k : FaultKind) : (s.raise k).output = s.output := rfl
@[simp] theorem State.raise_status (k : FaultKind) : (s.raise k).status = .faulted k (Params.exitCode s.params k) := rfl
@[simp] theorem State.raise_params (k : FaultKind) : (s.raise k).params = s.params := rfl
@[simp] theorem State.raise_readReg (k : FaultKind) (r : RegIdx) : (s.raise k).readReg r = s.readReg r := rfl

/-! ### `halt` -/

@[simp] theorem State.halt_regs : s.halt.regs = s.regs := rfl
@[simp] theorem State.halt_hi : s.halt.hi = s.hi := rfl
@[simp] theorem State.halt_lo : s.halt.lo = s.lo := rfl
@[simp] theorem State.halt_pc : s.halt.pc = s.pc := rfl
@[simp] theorem State.halt_npc : s.halt.npc = s.npc := rfl
@[simp] theorem State.halt_imem : s.halt.imem = s.imem := rfl
@[simp] theorem State.halt_dmem : s.halt.dmem = s.dmem := rfl
@[simp] theorem State.halt_input : s.halt.input = s.input := rfl
@[simp] theorem State.halt_output : s.halt.output = s.output := rfl
@[simp] theorem State.halt_status : s.halt.status = .halted s.haltCode := rfl
@[simp] theorem State.halt_params : s.halt.params = s.params := rfl
@[simp] theorem State.halt_readReg (r : RegIdx) : s.halt.readReg r = s.readReg r := rfl

/-! ### `getcConsume` -/

@[simp] theorem State.getcConsume_regs : s.getcConsume.regs = s.regs := rfl
@[simp] theorem State.getcConsume_hi : s.getcConsume.hi = s.hi := rfl
@[simp] theorem State.getcConsume_lo : s.getcConsume.lo = s.lo := rfl
@[simp] theorem State.getcConsume_pc : s.getcConsume.pc = s.pc := rfl
@[simp] theorem State.getcConsume_npc : s.getcConsume.npc = s.npc := rfl
@[simp] theorem State.getcConsume_imem : s.getcConsume.imem = s.imem := rfl
@[simp] theorem State.getcConsume_dmem : s.getcConsume.dmem = s.dmem := rfl
@[simp] theorem State.getcConsume_input : s.getcConsume.input = s.input.tail := rfl
@[simp] theorem State.getcConsume_output : s.getcConsume.output = s.output := rfl
@[simp] theorem State.getcConsume_status : s.getcConsume.status = s.status := rfl
@[simp] theorem State.getcConsume_params : s.getcConsume.params = s.params := rfl
@[simp] theorem State.getcConsume_readReg (r : RegIdx) : s.getcConsume.readReg r = s.readReg r := rfl

/-! ### `putcEmit` -/

@[simp] theorem State.putcEmit_regs (b : Byte) : (s.putcEmit b).regs = s.regs := rfl
@[simp] theorem State.putcEmit_hi (b : Byte) : (s.putcEmit b).hi = s.hi := rfl
@[simp] theorem State.putcEmit_lo (b : Byte) : (s.putcEmit b).lo = s.lo := rfl
@[simp] theorem State.putcEmit_pc (b : Byte) : (s.putcEmit b).pc = s.pc := rfl
@[simp] theorem State.putcEmit_npc (b : Byte) : (s.putcEmit b).npc = s.npc := rfl
@[simp] theorem State.putcEmit_imem (b : Byte) : (s.putcEmit b).imem = s.imem := rfl
@[simp] theorem State.putcEmit_dmem (b : Byte) : (s.putcEmit b).dmem = s.dmem := rfl
@[simp] theorem State.putcEmit_input (b : Byte) : (s.putcEmit b).input = s.input := rfl
@[simp] theorem State.putcEmit_output (b : Byte) : (s.putcEmit b).output = s.output ++ [b] := rfl
@[simp] theorem State.putcEmit_status (b : Byte) : (s.putcEmit b).status = s.status := rfl
@[simp] theorem State.putcEmit_params (b : Byte) : (s.putcEmit b).params = s.params := rfl
@[simp] theorem State.putcEmit_readReg (b : Byte) (r : RegIdx) : (s.putcEmit b).readReg r = s.readReg r := rfl

/-! ### `placeWord` changes `imem` alone -/

@[simp] theorem State.placeWord_regs (w : Word) : (s.placeWord w).regs = s.regs := by
  unfold State.placeWord; split <;> rfl
@[simp] theorem State.placeWord_hi (w : Word) : (s.placeWord w).hi = s.hi := by
  unfold State.placeWord; split <;> rfl
@[simp] theorem State.placeWord_lo (w : Word) : (s.placeWord w).lo = s.lo := by
  unfold State.placeWord; split <;> rfl
@[simp] theorem State.placeWord_pc (w : Word) : (s.placeWord w).pc = s.pc := by
  unfold State.placeWord; split <;> rfl
@[simp] theorem State.placeWord_npc (w : Word) : (s.placeWord w).npc = s.npc := by
  unfold State.placeWord; split <;> rfl
@[simp] theorem State.placeWord_dmem (w : Word) : (s.placeWord w).dmem = s.dmem := by
  unfold State.placeWord; split <;> rfl
@[simp] theorem State.placeWord_input (w : Word) : (s.placeWord w).input = s.input := by
  unfold State.placeWord; split <;> rfl
@[simp] theorem State.placeWord_output (w : Word) : (s.placeWord w).output = s.output := by
  unfold State.placeWord; split <;> rfl
@[simp] theorem State.placeWord_status (w : Word) : (s.placeWord w).status = s.status := by
  unfold State.placeWord; split <;> rfl
@[simp] theorem State.placeWord_params (w : Word) : (s.placeWord w).params = s.params := by
  unfold State.placeWord; split <;> rfl

end Fields

end Sys2Proof.Machine
end

