-- ==== Sys2Proof/Laws/Memory.lean ====
section
/-! SUPPORT. Bytes of memory: the canonical form is kept, a read after a write gives the value written, every other
byte is left alone, and an image is read back byte for byte. -/

namespace Sys2Proof.Machine

theorem Memory.wfFrom_cons {lo hi a : Nat} {b : Byte} {m : Memory} :
    Memory.wfFrom lo hi ((a, b) :: m) = true ↔
      lo ≤ a ∧ a < hi ∧ b ≠ Memory.unlisted ∧ Memory.wfFrom (a + 1) hi m = true := by
  simp [Memory.wfFrom, and_assoc]

theorem Memory.wfFrom_mono {lo lo' hi : Nat} {m : Memory} (h : Memory.wfFrom lo hi m = true) (hl : lo' ≤ lo) :
    Memory.wfFrom lo' hi m = true := by
  cases m with
  | nil => rfl
  | cons c m =>
    obtain ⟨a, b⟩ := c
    rw [Memory.wfFrom_cons] at h ⊢
    exact ⟨by omega, h.2⟩

/-- A canonical memory of a segment is canonical in any wider range. -/
theorem Memory.wfFrom_widen {lo lo' hi hi' : Nat} {m : Memory} (h : Memory.wfFrom lo hi m = true) (hl : lo' ≤ lo)
    (hh : hi ≤ hi') : Memory.wfFrom lo' hi' m = true := by
  induction m generalizing lo lo' with
  | nil => rfl
  | cons c m ih =>
    obtain ⟨a, b⟩ := c
    rw [Memory.wfFrom_cons] at h ⊢
    exact ⟨by omega, by omega, h.2.2.1, ih h.2.2.2 le_rfl⟩

theorem Memory.read_below {lo hi a : Nat} {m : Memory} (h : Memory.wfFrom lo hi m = true) (ha : a < lo) :
    Memory.read m a = Memory.unlisted := by
  induction m generalizing lo with
  | nil => rfl
  | cons c m ih =>
    obtain ⟨k, v⟩ := c
    rw [Memory.wfFrom_cons] at h
    rw [Memory.read, if_neg (by omega), ih h.2.2.2 (by omega)]

theorem Memory.read_consByte {lo hi a c : Nat} {b : Byte} {m : Memory} (h : Memory.wfFrom lo hi m = true)
    (ha : a < lo) : Memory.read (Memory.consByte a b m) c = if c = a then b else Memory.read m c := by
  unfold Memory.consByte
  split
  · next hb =>
    split
    · next hc => rw [hc, Memory.read_below h ha, hb]
    · rfl
  · rfl

theorem Memory.wfFrom_consByte {lo hi a : Nat} {b : Byte} {m : Memory} (h : Memory.wfFrom (a + 1) hi m = true)
    (hl : lo ≤ a) (hh : a < hi) : Memory.wfFrom lo hi (Memory.consByte a b m) = true := by
  unfold Memory.consByte
  split
  · exact Memory.wfFrom_mono h (by omega)
  · next hb => rw [Memory.wfFrom_cons]; exact ⟨hl, hh, hb, h⟩

/-- A write inside the range keeps the canonical form. -/
theorem Memory.wfFrom_write {lo hi a : Nat} {b : Byte} {m : Memory} (h : Memory.wfFrom lo hi m = true)
    (hl : lo ≤ a) (hh : a < hi) : Memory.wfFrom lo hi (Memory.write m a b) = true := by
  induction m generalizing lo with
  | nil => exact Memory.wfFrom_consByte rfl hl hh
  | cons c m ih =>
    obtain ⟨k, v⟩ := c
    have hc := Memory.wfFrom_cons.mp h
    unfold Memory.write
    split
    · next hk =>
      refine Memory.wfFrom_consByte ?_ hl hh
      rw [Memory.wfFrom_cons]
      exact ⟨hk, hc.2⟩
    · split
      · next hk => subst hk; exact Memory.wfFrom_consByte hc.2.2.2 hl hh
      · rw [Memory.wfFrom_cons]
        exact ⟨hc.1, hc.2.1, hc.2.2.1, ih hc.2.2.2 (by omega)⟩

/-- Read after write: the byte written at its own address, every other byte as before. -/
theorem Memory.read_write {lo hi a c : Nat} {b : Byte} {m : Memory} (h : Memory.wfFrom lo hi m = true) :
    Memory.read (Memory.write m a b) c = if c = a then b else Memory.read m c := by
  induction m generalizing lo with
  | nil =>
    unfold Memory.write
    exact Memory.read_consByte (lo := a + 1) (hi := 0) rfl (by omega)
  | cons x m ih =>
    obtain ⟨k, v⟩ := x
    have hc := Memory.wfFrom_cons.mp h
    unfold Memory.write
    split
    · next hk =>
      refine Memory.read_consByte (lo := k) (hi := hi) ?_ hk
      rw [Memory.wfFrom_cons]
      exact ⟨le_rfl, hc.2⟩
    · split
      · next hk =>
        subst hk
        rw [Memory.read_consByte hc.2.2.2 (by omega)]
        split
        · rfl
        · next hn => rw [Memory.read, if_neg hn]
      · next hk =>
        rw [Memory.read, Memory.read, ih hc.2.2.2]
        split
        · next hn => rw [if_neg (by omega)]
        · rfl

/-- The bytes a store of a width writes stay inside the range, so the canonical form is kept. -/
theorem Memory.wfFrom_writeBE {lo hi a : Nat} {v : Word} {n : AccessWidth} {m : Memory}
    (h : Memory.wfFrom lo hi m = true) (hl : lo ≤ a) (hh : a + n.bytes ≤ hi) :
    Memory.wfFrom lo hi (Memory.writeBE m a v n) = true := by
  cases n <;> simp only [AccessWidth.bytes] at hh <;> unfold Memory.writeBE <;>
    repeat' first
      | exact h
      | apply Memory.wfFrom_write
      | omega

/-- A store leaves every byte outside its width alone. -/
theorem Memory.read_writeBE_outside {lo hi a c : Nat} {v : Word} {n : AccessWidth} {m : Memory}
    (h : Memory.wfFrom lo hi m = true) (hl : lo ≤ a) (hh : a + n.bytes ≤ hi) (hc : c < a ∨ a + n.bytes ≤ c) :
    Memory.read (Memory.writeBE m a v n) c = Memory.read m c := by
  cases n <;> simp only [AccessWidth.bytes] at hh hc <;> unfold Memory.writeBE
  · rw [Memory.read_write h, if_neg (by omega)]
  · rw [Memory.read_write (Memory.wfFrom_write h hl (by omega)), if_neg (by omega),
      Memory.read_write h, if_neg (by omega)]
  · have h1 := Memory.wfFrom_write (b := v.extractLsb 31 24) h hl (by omega)
    have h2 := Memory.wfFrom_write (a := a + 1) (b := v.extractLsb 23 16) h1 (by omega) (by omega)
    have h3 := Memory.wfFrom_write (a := a + 2) (b := v.extractLsb 15 8) h2 (by omega) (by omega)
    rw [Memory.read_write h3, if_neg (by omega), Memory.read_write h2, if_neg (by omega),
      Memory.read_write h1, if_neg (by omega), Memory.read_write h, if_neg (by omega)]

theorem Memory.read_writeBE_byte {lo hi a : Nat} {v : Word} {m : Memory} (h : Memory.wfFrom lo hi m = true) :
    Memory.read (Memory.writeBE m a v .byte) a = v.extractLsb 7 0 := by
  rw [Memory.writeBE, Memory.read_write h, if_pos rfl]

theorem Memory.read_writeBE_half {lo hi a : Nat} {v : Word} {m : Memory} (h : Memory.wfFrom lo hi m = true)
    (hl : lo ≤ a) (hh : a + 2 ≤ hi) :
    Memory.read (Memory.writeBE m a v .half) a = v.extractLsb 15 8 ∧
    Memory.read (Memory.writeBE m a v .half) (a + 1) = v.extractLsb 7 0 := by
  have h1 := Memory.wfFrom_write (b := v.extractLsb 15 8) h hl (by omega)
  simp only [Memory.writeBE, Memory.read_write h1, Memory.read_write h]
  exact ⟨by simp, by simp⟩

theorem Memory.read_writeBE_word {lo hi a : Nat} {v : Word} {m : Memory} (h : Memory.wfFrom lo hi m = true)
    (hl : lo ≤ a) (hh : a + 4 ≤ hi) :
    Memory.read (Memory.writeBE m a v .word) a = v.extractLsb 31 24 ∧
    Memory.read (Memory.writeBE m a v .word) (a + 1) = v.extractLsb 23 16 ∧
    Memory.read (Memory.writeBE m a v .word) (a + 2) = v.extractLsb 15 8 ∧
    Memory.read (Memory.writeBE m a v .word) (a + 3) = v.extractLsb 7 0 := by
  have h1 := Memory.wfFrom_write (b := v.extractLsb 31 24) h hl (by omega)
  have h2 := Memory.wfFrom_write (a := a + 1) (b := v.extractLsb 23 16) h1 (by omega) (by omega)
  have h3 := Memory.wfFrom_write (a := a + 2) (b := v.extractLsb 15 8) h2 (by omega) (by omega)
  simp only [Memory.writeBE, Memory.read_write h3, Memory.read_write h2, Memory.read_write h1, Memory.read_write h]
  exact ⟨by simp, by simp, by simp, by simp⟩

/-! ### A word and its bytes -/

theorem wordOfBytes_extract (v : Word) :
    wordOfBytes (v.extractLsb 31 24) (v.extractLsb 23 16) (v.extractLsb 15 8) (v.extractLsb 7 0) = v := by
  unfold wordOfBytes
  ext k hk
  simp
  grind

/-- A byte appended below a number. -/
theorem append_byte_toNat {n : Nat} (x : BitVec n) (b : Byte) : (x ++ b).toNat = x.toNat * 256 + b.toNat := by
  rw [BitVec.toNat_append, Nat.shiftLeft_eq, Nat.mul_comm x.toNat, ← Nat.two_pow_add_eq_or_of_lt b.isLt]

theorem halfOfBytes_toNat (b0 b1 : Byte) : (halfOfBytes b0 b1).toNat = b0.toNat * 256 + b1.toNat :=
  append_byte_toNat b0 b1

theorem wordOfBytes_toNat (b0 b1 b2 b3 : Byte) :
    (wordOfBytes b0 b1 b2 b3).toNat = ((b0.toNat * 256 + b1.toNat) * 256 + b2.toNat) * 256 + b3.toNat := by
  unfold wordOfBytes
  rw [append_byte_toNat, append_byte_toNat, append_byte_toNat]

/-- The decoder reads from a word's bytes what it reads from the word (20_memory R42). -/
theorem decodeBytes_bytesOfWord {w : Word} {i : Instr} (h : decodeWord w = .ok i) :
    decodeBytes (bytesOfWord w) = .ok (i, []) := by
  simp only [bytesOfWord, decodeBytes, wordOfBytes_extract, h]

/-- A word written is the word read. -/
theorem Memory.readBE_writeBE_word {lo hi a : Nat} {v : Word} {m : Memory} (h : Memory.wfFrom lo hi m = true)
    (hl : lo ≤ a) (hh : a + 4 ≤ hi) : Memory.readBE (Memory.writeBE m a v .word) a .word = v := by
  obtain ⟨h0, h1, h2, h3⟩ := Memory.read_writeBE_word (v := v) h hl hh
  rw [Memory.readBE, h0, h1, h2, h3, wordOfBytes_extract]

/-! ### Images (70 R252) -/

theorem Memory.wfFrom_ofImage {base hi : Nat} {l : List Byte} (h : base + l.length ≤ hi) :
    Memory.wfFrom base hi (Memory.ofImage base l) = true := by
  induction l generalizing base with
  | nil => rfl
  | cons b bs ih =>
    simp only [List.length_cons] at h
    exact Memory.wfFrom_consByte (ih (by omega)) le_rfl (by omega)

/-- Byte `j` of an image is read at `base + j`, and every other address reads as zero. -/
theorem Memory.read_ofImage {base a : Nat} {l : List Byte} :
    Memory.read (Memory.ofImage base l) a =
      if base ≤ a then l.getD (a - base) Memory.unlisted else Memory.unlisted := by
  induction l generalizing base with
  | nil => simp [Memory.ofImage, Memory.read]
  | cons b bs ih =>
    rw [Memory.ofImage, Memory.read_consByte (Memory.wfFrom_ofImage le_rfl) (by omega), ih]
    rcases Nat.lt_trichotomy a base with h | h | h
    · rw [if_neg (by omega), if_neg (by omega), if_neg (by omega)]
    · subst h; simp
    · obtain ⟨d, rfl⟩ : ∃ d, a = base + 1 + d := ⟨a - (base + 1), by omega⟩
      rw [if_neg (by omega), if_pos (by omega), if_pos (by omega)]
      rw [show base + 1 + d - base = d + 1 by omega, show base + 1 + d - (base + 1) = d by omega]
      rfl

end Sys2Proof.Machine
end

