-- ==== Sys2Proof/Laws/Ops.lean ====
section
/-! SUPPORT. One lemma for each shared operation over registers, regions and accesses, which says once what it does. -/

namespace Sys2Proof.Machine

/-! ### Registers -/

/-- Register 0 reads as zero when it is hard-wired (10_state R21). -/
theorem State.readReg_hardwired {s : State} {r : RegIdx} (h : s.isHardwired r = true) : s.readReg r = 0 := by
  simp [State.readReg, h]

/-- Read after write of a register: the value written, unless register 0 discards it (10_state R21). -/
theorem State.readReg_writeReg (s : State) (d r : RegIdx) (v : Word) :
    (s.writeReg d v).readReg r = if r = d ∧ s.isHardwired d = false then v else s.readReg r := by
  by_cases hr : s.isHardwired r = true
  · have h0 : (s.writeReg d v).readReg r = 0 := State.readReg_hardwired (by simpa using hr)
    rw [h0, State.readReg_hardwired hr]
    split
    · next hd => rw [hd.1] at hr; simp [hr] at hd
    · rfl
  · simp only [State.readReg, State.writeReg_isHardwired, hr, Bool.false_eq_true, if_false]
    by_cases hd : s.isHardwired d = true
    · simp [State.writeReg_regs, hd]
    · simp only [State.writeReg_regs, hd, Bool.false_eq_true, if_false, Vector.getElem_set]
      by_cases hrd : r = d
      · simp [hrd]
      · have : ¬ d.toNat = r.toNat := fun h => hrd (BitVec.eq_of_toNat_eq h.symm)
        simp [hrd, this]

@[simp] theorem State.readReg_writeReg_ne {s : State} {d r : RegIdx} {v : Word} (h : r ≠ d) :
    (s.writeReg d v).readReg r = s.readReg r := by
  simp [State.readReg_writeReg, h]

/-- The stored register 0 stays what it is when it is hard-wired (10_state R21). -/
theorem State.writeReg_regs_zero {s : State} {d : RegIdx} {v : Word} (h : s.params.r0Hardwired = true) :
    (s.writeReg d v).regs[0] = s.regs[0] := by
  simp only [State.writeReg_regs, State.isHardwired, h, Bool.true_and, beq_iff_eq]
  split
  · rfl
  · next hd =>
    have : d.toNat ≠ 0 := fun h0 => hd (BitVec.eq_of_toNat_eq h0)
    simp [this]

/-! ### Regions and alignment (20_memory R41, R43) -/

theorem region_imem_iff {a : Word} : region a = .imem ↔ 0x10000000 ≤ a.toNat ∧ a.toNat ≤ 0x10FFFFFF := by
  unfold region
  constructor
  · intro h
    split at h
    · assumption
    · split at h <;> [cases h; split at h <;> [cases h; split at h <;> cases h]]
  · intro h; rw [if_pos h]

theorem region_dmem_iff {a : Word} : region a = .dmem ↔ 0x20000000 ≤ a.toNat ∧ a.toNat ≤ 0x23FFFFFF := by
  unfold region
  constructor
  · intro h
    split at h
    · cases h
    · split at h
      · assumption
      · split at h <;> [cases h; split at h <;> cases h]
  · intro h; rw [if_neg (by omega), if_pos h]

theorem aligned_half_iff {a : Word} : aligned a .half = true ↔ a.toNat % 2 = 0 := by
  simp only [aligned, beq_iff_eq]
  rw [← BitVec.toNat_inj]
  simp

theorem aligned_word_iff {a : Word} : aligned a .word = true ↔ a.toNat % 4 = 0 := by
  simp only [aligned, beq_iff_eq]
  rw [← BitVec.toNat_inj]
  simp

theorem aligned_iff {a : Word} {n : AccessWidth} : aligned a n = true ↔ a.toNat % n.bytes = 0 := by
  cases n
  · simp [aligned, AccessWidth.bytes, Nat.mod_one]
  · exact aligned_half_iff
  · exact aligned_word_iff

/-- An aligned access of the data segment stays inside it. -/
theorem dmem_access_inside {a : Word} {n : AccessWidth} (ha : aligned a n = true) (hr : region a = .dmem) :
    Config.dmemBase ≤ a.toNat ∧ a.toNat + n.bytes ≤ Config.dmemBase + Config.dmemSize := by
  rw [aligned_iff] at ha
  rw [region_dmem_iff] at hr
  unfold Config.dmemBase Config.dmemSize
  cases n <;> simp only [AccessWidth.bytes] at ha ⊢ <;> omega

/-- An aligned fetch from the instruction segment stays inside it. -/
theorem imem_access_inside {a : Word} (ha : aligned a .word = true) (hr : region a = .imem) :
    Config.imemBase ≤ a.toNat ∧ a.toNat + 4 ≤ Config.imemBase + Config.imemSize := by
  rw [aligned_word_iff] at ha
  rw [region_imem_iff] at hr
  unfold Config.imemBase Config.imemSize
  omega

/-! ### The access primitives (20_memory R44 to R48) -/

/-- A read of the data segment (20_memory R45). -/
theorem memRead_dmem {s : State} {a : Word} {n : AccessWidth} (ha : aligned a n = true) (hr : region a = .dmem) :
    memRead s a n = some (Memory.readBE s.dmem a.toNat n, s) := by
  simp [memRead, ha, hr]

/-- A read of the input port (20_memory R45, R49). -/
theorem memRead_getc (s : State) {n : AccessWidth} (hn : n ≠ .half) :
    memRead s Config.getcAddr n = some (truncateTo s.getcValue n, s.getcConsume) := by
  cases n
  · rfl
  · exact absurd rfl hn
  · rfl

/-- Everything a read can do: the data segment without a side effect, the input port with its own, or a fault. -/
theorem memRead_cases (s : State) (a : Word) (n : AccessWidth) :
    (aligned a n = true ∧ region a = .dmem ∧ memRead s a n = some (Memory.readBE s.dmem a.toNat n, s)) ∨
    (a = Config.getcAddr ∧ n ≠ .half ∧ memRead s a n = some (truncateTo s.getcValue n, s.getcConsume)) ∨
    memRead s a n = none := by
  cases ha : aligned a n
  · exact .inr (.inr (by simp [memRead, ha]))
  · cases hr : region a
    case dmem => exact .inl ⟨rfl, rfl, memRead_dmem ha hr⟩
    case getc =>
      by_cases hg : a = Config.getcAddr ∧ n ≠ .half
      · exact .inr (.inl ⟨hg.1, hg.2, by rw [hg.1, memRead_getc s hg.2]⟩)
      · exact .inr (.inr (by simp only [memRead, ha, hr, if_neg hg]; rfl))
    all_goals exact .inr (.inr (by simp [memRead, ha, hr]))

/-- Everything a write can do: the data segment's bytes, one output byte, or a fault (20_memory R46). -/
theorem memWrite_cases (s : State) (a : Word) (n : AccessWidth) (v : Word) :
    (aligned a n = true ∧ region a = .dmem ∧
      memWrite s a n v = some { s with dmem := Memory.writeBE s.dmem a.toNat v n }) ∨
    (a = Config.putcAddr ∧ n ≠ .half ∧ memWrite s a n v = some (s.putcEmit (v.extractLsb 7 0))) ∨
    memWrite s a n v = none := by
  cases ha : aligned a n
  · exact .inr (.inr (by simp [memWrite, ha]))
  · cases hr : region a
    case dmem => exact .inl ⟨rfl, rfl, by simp [memWrite, ha, hr]⟩
    case putc =>
      by_cases hg : a = Config.putcAddr ∧ n ≠ .half
      · exact .inr (.inl ⟨hg.1, hg.2, by simp only [memWrite, ha, hr, if_pos hg]; rfl⟩)
      · exact .inr (.inr (by simp only [memWrite, ha, hr, if_neg hg]; rfl))
    all_goals exact .inr (.inr (by simp [memWrite, ha, hr]))

/-- A fetch that succeeds is aligned, in IMEM, and reads four bytes there (20_memory R48). -/
theorem fetch_eq_some {s : State} {a w : Word} :
    fetch s a = some w ↔
      aligned a .word = true ∧ region a = .imem ∧ w = Memory.readBE s.imem a.toNat .word := by
  unfold fetch
  split
  · next h => simp [h, eq_comm]
  · next h => simp only [reduceCtorEq, false_iff]; exact fun k => h ⟨k.1, k.2.1⟩

theorem fetch_eq_none {s : State} {a : Word} :
    fetch s a = none ↔ ¬ (aligned a .word = true ∧ region a = .imem) := by
  unfold fetch
  split <;> simp_all

/-! ### The word placed is the word fetched -/

theorem State.fetch_placeWord {s : State} {lo hi : Nat} (w : Word) (hm : Memory.wfFrom lo hi s.imem = true)
    (hl : lo ≤ s.pc.toNat) (hh : s.pc.toNat + 4 ≤ hi) (ha : aligned s.pc .word = true) (hr : region s.pc = .imem) :
    fetch (s.placeWord w) s.pc = some w := by
  rw [fetch_eq_some]
  refine ⟨ha, hr, ?_⟩
  rw [State.placeWord, if_pos ⟨ha, hr⟩]
  exact (Memory.readBE_writeBE_word hm hl hh).symm

end Sys2Proof.Machine
end

