-- ==== Sys2Proof/Laws/Exec.lean ====
section
/-! SUPPORT. What one instruction and one step can do, said once: every invariant and every whole-machine claim is a
case analysis over `exec_effect` and `cycle_effect`. -/

namespace Sys2Proof.Machine

/-- The change of data one instruction makes, apart from the pc pair. -/
inductive DataEffect (s : State) : State → Prop where
  | nothing : DataEffect s s
  | reg (d : RegIdx) (v : Word) : DataEffect s (s.writeReg d v)
  | hiLo (h l : Word) : DataEffect s (s.writeHiLo h l)
  | store (a : Word) (n : AccessWidth) (v : Word) (ha : aligned a n = true) (hr : region a = .dmem) :
      DataEffect s { s with dmem := Memory.writeBE s.dmem a.toNat v n }
  | input (d : RegIdx) (v : Word) : DataEffect s (s.getcConsume.writeReg d v)
  | output (b : Byte) : DataEffect s (s.putcEmit b)

/-- No change of data touches the status, the parameters or instruction memory. -/
theorem DataEffect.kept {s u : State} (h : DataEffect s u) :
    u.status = s.status ∧ u.params = s.params ∧ u.imem = s.imem := by
  cases h <;> simp

/-- What one instruction does: a change of data and a move of the pc pair into the delay slot, or a fault. -/
def Effect (s t : State) : Prop :=
  (∃ u n, DataEffect s u ∧ t = { u with pc := s.npc, npc := n }) ∨ (∃ k, t = s.raise k)

theorem Effect.of_finishReg (s : State) (d : RegIdx) (v : Word) :
    ∃ t, s.finishReg d v = .next t ∧ Effect s t := by
  refine ⟨_, rfl, .inl ⟨s.writeReg d v, s.npc + 4, .reg d v, ?_⟩⟩
  simp [State.seq]

theorem Effect.of_finishFault (s : State) (k : FaultKind) :
    ∃ t, s.finishFault k = .next t ∧ Effect s t := ⟨_, rfl, .inr ⟨k, rfl⟩⟩

theorem Effect.of_seq (s : State) : Effect s s.seq := .inl ⟨s, s.npc + 4, .nothing, rfl⟩

theorem Effect.of_hiLo (s : State) (h l : Word) : Effect s (s.writeHiLo h l).seq :=
  .inl ⟨_, s.npc + 4, .hiLo h l, rfl⟩

theorem Effect.of_redirect (s : State) (t : Word) : Effect s (s.redirect t) := .inl ⟨s, t, .nothing, rfl⟩

theorem Effect.of_linkRedirect (s : State) (d : RegIdx) (v t : Word) :
    Effect s ((s.writeReg d v).redirect t) := by
  refine .inl ⟨s.writeReg d v, t, .reg d v, ?_⟩
  simp [State.redirect]

theorem addChecked_effect (d : RegIdx) (a b : Word) (s : State) :
    ∃ t, addChecked d a b s = .next t ∧ Effect s t := by
  unfold addChecked
  split
  · exact Effect.of_finishFault _ _
  · exact Effect.of_finishReg _ _ _

theorem subChecked_effect (d : RegIdx) (a b : Word) (s : State) :
    ∃ t, subChecked d a b s = .next t ∧ Effect s t := by
  unfold subChecked
  split
  · exact Effect.of_finishFault _ _
  · exact Effect.of_finishReg _ _ _

theorem branchIf_effect (c : Bool) (off : BitVec 16) (s : State) :
    ∃ t, branchIf c off s = .next t ∧ Effect s t := by
  unfold branchIf
  split
  · exact ⟨_, rfl, Effect.of_redirect _ _⟩
  · exact ⟨_, rfl, Effect.of_seq _⟩

theorem branchIf_link_effect (c : Bool) (off : BitVec 16) (s : State) (d : RegIdx) (v : Word) :
    ∃ t, branchIf c off (s.writeReg d v) = .next t ∧ Effect s t := by
  unfold branchIf
  split
  · exact ⟨_, rfl, Effect.of_linkRedirect _ _ _ _⟩
  · refine ⟨_, rfl, .inl ⟨s.writeReg d v, s.npc + 4, .reg d v, ?_⟩⟩
    simp [State.seq]

theorem loadVia_effect (n : AccessWidth) (ext : Word → Word) (rt rs : RegIdx) (off : BitVec 16) (s : State) :
    ∃ t, loadVia n ext rt rs off s = .next t ∧ Effect s t := by
  unfold loadVia
  rcases memRead_cases s (effAddr s rs off) n with ⟨-, -, h⟩ | ⟨-, -, h⟩ | h <;> rw [h]
  · exact Effect.of_finishReg _ _ _
  · refine ⟨_, rfl, .inl ⟨_, s.npc + 4, .input rt (ext (truncateTo s.getcValue n)), ?_⟩⟩
    simp [State.seq]
  · exact Effect.of_finishFault _ _

theorem storeVia_effect (n : AccessWidth) (rt rs : RegIdx) (off : BitVec 16) (s : State) :
    ∃ t, storeVia n rt rs off s = .next t ∧ Effect s t := by
  unfold storeVia
  rcases memWrite_cases s (effAddr s rs off) n (s.readReg rt) with ⟨ha, hr, h⟩ | ⟨-, -, h⟩ | h <;> rw [h]
  · exact ⟨_, rfl, .inl ⟨_, s.npc + 4, .store _ n (s.readReg rt) ha hr, rfl⟩⟩
  · exact ⟨_, rfl, .inl ⟨_, s.npc + 4, .output _, rfl⟩⟩
  · exact Effect.of_finishFault _ _

theorem mergeVia_effect (merge : LwlrMode → Word → Word → BitVec 2 → Word) (rt rs : RegIdx) (off : BitVec 16)
    (s : State) : ∃ t, mergeVia merge rt rs off s = .next t ∧ Effect s t := by
  simp only [mergeVia]
  split
  · exact Effect.of_finishReg _ _ _
  · exact Effect.of_finishFault _ _

theorem execDiv_effect (rs rt : RegIdx) (s : State) : ∃ t, execDiv rs rt s = .next t ∧ Effect s t := by
  simp only [execDiv]
  split
  · exact ⟨_, rfl, Effect.of_seq s⟩
  · split <;> exact ⟨_, rfl, Effect.of_hiLo _ _ _⟩

theorem execDivu_effect (rs rt : RegIdx) (s : State) : ∃ t, execDivu rs rt s = .next t ∧ Effect s t := by
  simp only [execDivu]
  split
  · exact ⟨_, rfl, Effect.of_seq s⟩
  · exact ⟨_, rfl, Effect.of_hiLo _ _ _⟩

/-- What any instruction does: it answers a next state, and that state is one of `Effect`. -/
theorem exec_effect (i : Instr) (s : State) : ∃ t, exec i s = .next t ∧ Effect s t := by
  cases i with
  | add rd rs rt => exact addChecked_effect _ _ _ _
  | addi rt rs imm => exact addChecked_effect _ _ _ _
  | sub rd rs rt => exact subChecked_effect _ _ _ _
  | addu | subu | addiu | slt | sltu | slti | sltiu | lui | and | or | xor | andi | ori | xori =>
    exact Effect.of_finishReg _ _ _
  | mfhi | mflo | sll | srl | sra | sllv | srlv | srav => exact Effect.of_finishReg _ _ _
  | mult | multu => exact ⟨_, rfl, Effect.of_hiLo _ _ _⟩
  | mthi rs => exact ⟨_, rfl, Effect.of_hiLo s (s.readReg rs) s.lo⟩
  | mtlo rs => exact ⟨_, rfl, Effect.of_hiLo s s.hi (s.readReg rs)⟩
  | div rs rt => exact execDiv_effect _ _ _
  | divu rs rt => exact execDivu_effect _ _ _
  | beq | bne | blez | bgtz | bltz | bgez => exact branchIf_effect _ _ _
  | bltzal | bgezal => exact branchIf_link_effect _ _ _ _ _
  | j index => exact ⟨_, rfl, Effect.of_redirect _ _⟩
  | jr rs => exact ⟨_, rfl, Effect.of_redirect _ _⟩
  | jal index => exact ⟨_, rfl, Effect.of_linkRedirect _ _ _ _⟩
  | jalr rd rs => exact ⟨_, rfl, Effect.of_linkRedirect _ _ _ _⟩
  | lb | lbu | lh | lhu | lw => exact loadVia_effect _ _ _ _ _ _
  | lwl | lwr => exact mergeVia_effect _ _ _ _ _
  | sb | sh | sw => exact storeVia_effect _ _ _ _ _

theorem execUnknown_effect (s : State) : ∃ t, execUnknown s = .next t ∧ Effect s t := by
  unfold execUnknown
  split
  · exact ⟨_, rfl, Effect.of_seq s⟩
  · exact Effect.of_finishFault _ _

/-- What a step of a running core does: a halt at the null address or at the zero word, or an `Effect`. -/
theorem cycle_effect (s : State) :
    ∃ t, cycle s = .next t ∧ (t = s.halt ∧ (s.pc = 0 ∨ fetch s s.pc = some 0) ∨ Effect s t) := by
  unfold cycle
  split
  · next h => exact ⟨_, rfl, .inl ⟨rfl, .inl h⟩⟩
  · split
    · exact ⟨_, rfl, .inr (.inr ⟨_, rfl⟩)⟩
    · next w hw =>
      unfold execWord
      split
      · next i _ => obtain ⟨t, h, e⟩ := exec_effect i s; exact ⟨t, h, .inr e⟩
      · next hz =>
        refine ⟨_, rfl, .inl ⟨rfl, .inr ?_⟩⟩
        have : w = 0 := by
          by_contra hne
          simp only [decodeWord, if_neg hne] at hz
          unfold decodeNonzero at hz
          split at hz <;> first
            | cases hz
            | (unfold decodeSpecial at hz; split at hz <;> cases hz)
            | (unfold decodeBranchSpecial at hz; split at hz <;> cases hz)
        rw [hw, this]
      · obtain ⟨t, h, e⟩ := execUnknown_effect s; exact ⟨t, h, .inr e⟩
      · obtain ⟨t, h, e⟩ := execUnknown_effect s; exact ⟨t, h, .inr e⟩

/-- A step of a running core is its cycle. -/
theorem step_running {s : State} (h : s.status = .running) : step s = cycle s := by
  simp [step, engineStep, h]

/-- Only a running core steps. -/
theorem step_next_running {s t : State} (h : step s = .next t) : s.status = .running := by
  unfold step engineStep at h
  split at h
  · assumption
  · cases h
  · cases h

/-- Everything a step that answers a next state can do. -/
theorem step_effect {s t : State} (h : step s = .next t) :
    s.status = .running ∧ (t = s.halt ∧ (s.pc = 0 ∨ fetch s s.pc = some 0) ∨ Effect s t) := by
  have hr := step_next_running h
  rw [step_running hr] at h
  obtain ⟨u, hu, e⟩ := cycle_effect s
  rw [hu] at h
  cases h
  exact ⟨hr, e⟩

end Sys2Proof.Machine
end

