-- ==== Sys2Proof/Laws/PerInstr.lean ====
section
/-! SUPPORT. The family `TableRow`: the word the encoder writes for an instruction is one of the words of its row in
spec/opcode_table.json. -/

namespace Sys2Proof.Laws

/-- The selecting bits of an R-type word (30_encoding R74). -/
theorem encodeR_row (rs rt rd shamt : BitVec 5) (funct : BitVec 6) :
    encodeR rs rt rd shamt funct &&& 0xFC00003F = encodeR 0 0 0 0 funct := by
  have h := encodeR_and rs rt rd shamt funct 0#5 0#5 0#5 0#5 0x3F#6 0x3F#6
  simp only [BitVec.and_zero] at h
  rw [show funct &&& 0x3F#6 = funct from BitVec.and_allOnes] at h
  exact h

/-- The selecting bits of an I-type word (30_encoding R73). -/
theorem encodeI_row (op : BitVec 6) (rs rt : BitVec 5) (imm : BitVec 16) :
    encodeI op rs rt imm &&& 0xFC000000 = encodeI op 0 0 0 := by
  have h := encodeI_and op rs rt imm 0x3F#6 0#5 0#5 0#16
  simp only [BitVec.and_zero] at h
  rw [show op &&& 0x3F#6 = op from BitVec.and_allOnes] at h
  exact h

/-- The selecting bits of a B-type word (30_encoding R75). -/
theorem encodeB_row (rs rt : BitVec 5) (imm : BitVec 16) :
    encodeB rs rt imm &&& 0xFC1F0000 = encodeB 0 rt 0 := by
  have h := encodeI_and 0x01 rs rt imm 0x3F#6 0#5 0x1F#5 0#16
  simp only [BitVec.and_zero] at h
  rw [show rt &&& 0x1F#5 = rt from BitVec.and_allOnes] at h
  exact h

/-- The selecting bits of a J-type word (30_encoding R73). -/
theorem encodeJ_row (op : BitVec 6) (index : BitVec 26) :
    encodeJ op index &&& 0xFC000000 = encodeJ op 0 := by
  have h := encodeJ_and op 0x3F#6 index 0#26
  simp only [BitVec.and_zero] at h
  rw [show op &&& 0x3F#6 = op from BitVec.and_allOnes] at h
  exact h

/-- The encoder's word is one of the row's words. -/
def TableRow.Statement (i : Instr) : Prop := encode i &&& i.row.mask = i.row.pattern

theorem TableRow.add (rd rs rt : RegIdx) : TableRow.Statement (.add rd rs rt) :=
  encodeR_row _ _ _ _ _
theorem TableRow.addu (rd rs rt : RegIdx) : TableRow.Statement (.addu rd rs rt) :=
  encodeR_row _ _ _ _ _
theorem TableRow.sub (rd rs rt : RegIdx) : TableRow.Statement (.sub rd rs rt) :=
  encodeR_row _ _ _ _ _
theorem TableRow.subu (rd rs rt : RegIdx) : TableRow.Statement (.subu rd rs rt) :=
  encodeR_row _ _ _ _ _
theorem TableRow.addi (rt rs : RegIdx) (imm : BitVec 16) : TableRow.Statement (.addi rt rs imm) :=
  encodeI_row _ _ _ _
theorem TableRow.addiu (rt rs : RegIdx) (imm : BitVec 16) : TableRow.Statement (.addiu rt rs imm) :=
  encodeI_row _ _ _ _
theorem TableRow.slt (rd rs rt : RegIdx) : TableRow.Statement (.slt rd rs rt) :=
  encodeR_row _ _ _ _ _
theorem TableRow.sltu (rd rs rt : RegIdx) : TableRow.Statement (.sltu rd rs rt) :=
  encodeR_row _ _ _ _ _
theorem TableRow.slti (rt rs : RegIdx) (imm : BitVec 16) : TableRow.Statement (.slti rt rs imm) :=
  encodeI_row _ _ _ _
theorem TableRow.sltiu (rt rs : RegIdx) (imm : BitVec 16) : TableRow.Statement (.sltiu rt rs imm) :=
  encodeI_row _ _ _ _
theorem TableRow.lui (rt : RegIdx) (imm : BitVec 16) : TableRow.Statement (.lui rt imm) :=
  encodeI_row _ _ _ _
theorem TableRow.and (rd rs rt : RegIdx) : TableRow.Statement (.and rd rs rt) :=
  encodeR_row _ _ _ _ _
theorem TableRow.or (rd rs rt : RegIdx) : TableRow.Statement (.or rd rs rt) :=
  encodeR_row _ _ _ _ _
theorem TableRow.xor (rd rs rt : RegIdx) : TableRow.Statement (.xor rd rs rt) :=
  encodeR_row _ _ _ _ _
theorem TableRow.andi (rt rs : RegIdx) (imm : BitVec 16) : TableRow.Statement (.andi rt rs imm) :=
  encodeI_row _ _ _ _
theorem TableRow.ori (rt rs : RegIdx) (imm : BitVec 16) : TableRow.Statement (.ori rt rs imm) :=
  encodeI_row _ _ _ _
theorem TableRow.xori (rt rs : RegIdx) (imm : BitVec 16) : TableRow.Statement (.xori rt rs imm) :=
  encodeI_row _ _ _ _
theorem TableRow.mult (rs rt : RegIdx) : TableRow.Statement (.mult rs rt) :=
  encodeR_row _ _ _ _ _
theorem TableRow.multu (rs rt : RegIdx) : TableRow.Statement (.multu rs rt) :=
  encodeR_row _ _ _ _ _
theorem TableRow.div (rs rt : RegIdx) : TableRow.Statement (.div rs rt) :=
  encodeR_row _ _ _ _ _
theorem TableRow.divu (rs rt : RegIdx) : TableRow.Statement (.divu rs rt) :=
  encodeR_row _ _ _ _ _
theorem TableRow.mfhi (rd : RegIdx) : TableRow.Statement (.mfhi rd) :=
  encodeR_row _ _ _ _ _
theorem TableRow.mflo (rd : RegIdx) : TableRow.Statement (.mflo rd) :=
  encodeR_row _ _ _ _ _
theorem TableRow.mthi (rs : RegIdx) : TableRow.Statement (.mthi rs) :=
  encodeR_row _ _ _ _ _
theorem TableRow.mtlo (rs : RegIdx) : TableRow.Statement (.mtlo rs) :=
  encodeR_row _ _ _ _ _
theorem TableRow.sll (rd rt : RegIdx) (sa : BitVec 5) : TableRow.Statement (.sll rd rt sa) :=
  encodeR_row _ _ _ _ _
theorem TableRow.srl (rd rt : RegIdx) (sa : BitVec 5) : TableRow.Statement (.srl rd rt sa) :=
  encodeR_row _ _ _ _ _
theorem TableRow.sra (rd rt : RegIdx) (sa : BitVec 5) : TableRow.Statement (.sra rd rt sa) :=
  encodeR_row _ _ _ _ _
theorem TableRow.sllv (rd rt rs : RegIdx) : TableRow.Statement (.sllv rd rt rs) :=
  encodeR_row _ _ _ _ _
theorem TableRow.srlv (rd rt rs : RegIdx) : TableRow.Statement (.srlv rd rt rs) :=
  encodeR_row _ _ _ _ _
theorem TableRow.srav (rd rt rs : RegIdx) : TableRow.Statement (.srav rd rt rs) :=
  encodeR_row _ _ _ _ _
theorem TableRow.beq (rs rt : RegIdx) (off : BitVec 16) : TableRow.Statement (.beq rs rt off) :=
  encodeI_row _ _ _ _
theorem TableRow.bne (rs rt : RegIdx) (off : BitVec 16) : TableRow.Statement (.bne rs rt off) :=
  encodeI_row _ _ _ _
theorem TableRow.blez (rs : RegIdx) (off : BitVec 16) : TableRow.Statement (.blez rs off) :=
  encodeI_row _ _ _ _
theorem TableRow.bgtz (rs : RegIdx) (off : BitVec 16) : TableRow.Statement (.bgtz rs off) :=
  encodeI_row _ _ _ _
theorem TableRow.bltz (rs : RegIdx) (off : BitVec 16) : TableRow.Statement (.bltz rs off) :=
  encodeB_row _ _ _
theorem TableRow.bgez (rs : RegIdx) (off : BitVec 16) : TableRow.Statement (.bgez rs off) :=
  encodeB_row _ _ _
theorem TableRow.bltzal (rs : RegIdx) (off : BitVec 16) : TableRow.Statement (.bltzal rs off) :=
  encodeB_row _ _ _
theorem TableRow.bgezal (rs : RegIdx) (off : BitVec 16) : TableRow.Statement (.bgezal rs off) :=
  encodeB_row _ _ _
theorem TableRow.j (index : BitVec 26) : TableRow.Statement (.j index) :=
  encodeJ_row _ _
theorem TableRow.jal (index : BitVec 26) : TableRow.Statement (.jal index) :=
  encodeJ_row _ _
theorem TableRow.jr (rs : RegIdx) : TableRow.Statement (.jr rs) :=
  encodeR_row _ _ _ _ _
theorem TableRow.jalr (rd rs : RegIdx) : TableRow.Statement (.jalr rd rs) :=
  encodeR_row _ _ _ _ _
theorem TableRow.lb (rt rs : RegIdx) (off : BitVec 16) : TableRow.Statement (.lb rt rs off) :=
  encodeI_row _ _ _ _
theorem TableRow.lbu (rt rs : RegIdx) (off : BitVec 16) : TableRow.Statement (.lbu rt rs off) :=
  encodeI_row _ _ _ _
theorem TableRow.lh (rt rs : RegIdx) (off : BitVec 16) : TableRow.Statement (.lh rt rs off) :=
  encodeI_row _ _ _ _
theorem TableRow.lhu (rt rs : RegIdx) (off : BitVec 16) : TableRow.Statement (.lhu rt rs off) :=
  encodeI_row _ _ _ _
theorem TableRow.lw (rt rs : RegIdx) (off : BitVec 16) : TableRow.Statement (.lw rt rs off) :=
  encodeI_row _ _ _ _
theorem TableRow.lwl (rt rs : RegIdx) (off : BitVec 16) : TableRow.Statement (.lwl rt rs off) :=
  encodeI_row _ _ _ _
theorem TableRow.lwr (rt rs : RegIdx) (off : BitVec 16) : TableRow.Statement (.lwr rt rs off) :=
  encodeI_row _ _ _ _
theorem TableRow.sb (rt rs : RegIdx) (off : BitVec 16) : TableRow.Statement (.sb rt rs off) :=
  encodeI_row _ _ _ _
theorem TableRow.sh (rt rs : RegIdx) (off : BitVec 16) : TableRow.Statement (.sh rt rs off) :=
  encodeI_row _ _ _ _
theorem TableRow.sw (rt rs : RegIdx) (off : BitVec 16) : TableRow.Statement (.sw rt rs off) :=
  encodeI_row _ _ _ _

/-- The bits the decoder reads hold the bits that select the instruction. -/
theorem usedMask_and_mask (i : Instr) : i.usedMask &&& i.row.mask = i.row.mask := by
  cases i with
  | add | addu | sub | subu | slt | sltu | and | or | xor | sllv | srlv | srav =>
    exact (by decide : (0xFFFFF83F : Word) &&& 0xFC00003F = 0xFC00003F)
  | addi | addiu | slti | sltiu | andi | ori | xori | beq | bne | j | jal | lb | lbu | lh | lhu | lw | lwl |
    lwr | sb | sh | sw =>
    exact (by decide : (0xFFFFFFFF : Word) &&& 0xFC000000 = 0xFC000000)
  | lui =>
    exact (by decide : (0xFC1FFFFF : Word) &&& 0xFC000000 = 0xFC000000)
  | mult | multu | div | divu =>
    exact (by decide : (0xFFFF003F : Word) &&& 0xFC00003F = 0xFC00003F)
  | mfhi | mflo =>
    exact (by decide : (0xFC00F83F : Word) &&& 0xFC00003F = 0xFC00003F)
  | mthi | mtlo | jr =>
    exact (by decide : (0xFFE0003F : Word) &&& 0xFC00003F = 0xFC00003F)
  | sll | srl | sra =>
    exact (by decide : (0xFC1FFFFF : Word) &&& 0xFC00003F = 0xFC00003F)
  | blez | bgtz =>
    exact (by decide : (0xFFE0FFFF : Word) &&& 0xFC000000 = 0xFC000000)
  | bltz | bgez | bltzal | bgezal =>
    exact (by decide : (0xFFFFFFFF : Word) &&& 0xFC1F0000 = 0xFC1F0000)
  | jalr =>
    exact (by decide : (0xFFE0F83F : Word) &&& 0xFC00003F = 0xFC00003F)

end Sys2Proof.Laws
end

