-- ==== Sys2Proof/Tests/Slice0.lean ====
section
/-! SUPPORT. Tests of one step or one word each, their expected results from 95_test_vectors.md (the vector's name is
in the docstring) or from the tables of 30_encoding.md; then, for every statement with hypotheses, states and operands
that meet them. -/

namespace Sys2Proof.Tests

open Sys2Proof.Machine Sys2Proof.Claims

/-! ### Well-formedness and decoding -/

/-- The one ill-formed instruction is refused: its word would be the zero word (30_encoding R79). -/
theorem test_wellFormed_refuses_sll_zero : (Instr.sll 0 0 0).wellFormed = false := by decide

/-- Its neighbours are well formed. -/
theorem test_wellFormed_accepts :
    (Instr.sll 0 0 1).wellFormed = true ∧ (Instr.sll 1 0 0).wellFormed = true ∧
    (Instr.sll 0 1 0).wellFormed = true ∧ (Instr.add 0 0 0).wellFormed = true := by decide

/-- The words of arithmetic, bit by bit: register S 18, T 7, D 25, amount 21, immediate 0x8A35. -/
theorem test_decode_arithmetic :
    decodeWord 0b000000_10010_00111_11001_00000_100000 = .ok (.add 25 18 7) ∧
    decodeWord 0b000000_10010_00111_11001_00000_100001 = .ok (.addu 25 18 7) ∧
    decodeWord 0b000000_10010_00111_11001_00000_100010 = .ok (.sub 25 18 7) ∧
    decodeWord 0b000000_10010_00111_11001_00000_100011 = .ok (.subu 25 18 7) ∧
    decodeWord 0b001000_10010_00111_1000101000110101 = .ok (.addi 7 18 0x8A35) ∧
    decodeWord 0b001001_10010_00111_1000101000110101 = .ok (.addiu 7 18 0x8A35) ∧
    decodeWord 0b000000_10010_00111_11001_00000_101010 = .ok (.slt 25 18 7) ∧
    decodeWord 0b000000_10010_00111_11001_00000_101011 = .ok (.sltu 25 18 7) ∧
    decodeWord 0b001010_10010_00111_1000101000110101 = .ok (.slti 7 18 0x8A35) ∧
    decodeWord 0b001011_10010_00111_1000101000110101 = .ok (.sltiu 7 18 0x8A35) ∧
    decodeWord 0b001111_00000_00111_1000101000110101 = .ok (.lui 7 0x8A35) ∧
    decodeWord 0b000000_10010_00111_11001_00000_100100 = .ok (.and 25 18 7) ∧
    decodeWord 0b000000_10010_00111_11001_00000_100101 = .ok (.or 25 18 7) ∧
    decodeWord 0b000000_10010_00111_11001_00000_100110 = .ok (.xor 25 18 7) ∧
    decodeWord 0b001100_10010_00111_1000101000110101 = .ok (.andi 7 18 0x8A35) ∧
    decodeWord 0b001101_10010_00111_1000101000110101 = .ok (.ori 7 18 0x8A35) ∧
    decodeWord 0b001110_10010_00111_1000101000110101 = .ok (.xori 7 18 0x8A35) := by decide

/-- The words of multiply_divide, bit by bit: register S 18, T 7, D 25, amount 21, immediate 0x8A35. -/
theorem test_decode_multiply_divide :
    decodeWord 0b000000_10010_00111_00000_00000_011000 = .ok (.mult 18 7) ∧
    decodeWord 0b000000_10010_00111_00000_00000_011001 = .ok (.multu 18 7) ∧
    decodeWord 0b000000_10010_00111_00000_00000_011010 = .ok (.div 18 7) ∧
    decodeWord 0b000000_10010_00111_00000_00000_011011 = .ok (.divu 18 7) ∧
    decodeWord 0b000000_00000_00000_11001_00000_010000 = .ok (.mfhi 25) ∧
    decodeWord 0b000000_00000_00000_11001_00000_010010 = .ok (.mflo 25) ∧
    decodeWord 0b000000_10010_00000_00000_00000_010001 = .ok (.mthi 18) ∧
    decodeWord 0b000000_10010_00000_00000_00000_010011 = .ok (.mtlo 18) := by decide

/-- The words of shift, bit by bit: register S 18, T 7, D 25, amount 21, immediate 0x8A35. -/
theorem test_decode_shift :
    decodeWord 0b000000_00000_00111_11001_10101_000000 = .ok (.sll 25 7 21) ∧
    decodeWord 0b000000_00000_00111_11001_10101_000010 = .ok (.srl 25 7 21) ∧
    decodeWord 0b000000_00000_00111_11001_10101_000011 = .ok (.sra 25 7 21) ∧
    decodeWord 0b000000_10010_00111_11001_00000_000100 = .ok (.sllv 25 7 18) ∧
    decodeWord 0b000000_10010_00111_11001_00000_000110 = .ok (.srlv 25 7 18) ∧
    decodeWord 0b000000_10010_00111_11001_00000_000111 = .ok (.srav 25 7 18) := by decide

/-- The words of branch, bit by bit: register S 18, T 7, D 25, amount 21, immediate 0x8A35. -/
theorem test_decode_branch :
    decodeWord 0b000100_10010_00111_1000101000110101 = .ok (.beq 18 7 0x8A35) ∧
    decodeWord 0b000101_10010_00111_1000101000110101 = .ok (.bne 18 7 0x8A35) ∧
    decodeWord 0b000110_10010_00000_1000101000110101 = .ok (.blez 18 0x8A35) ∧
    decodeWord 0b000111_10010_00000_1000101000110101 = .ok (.bgtz 18 0x8A35) ∧
    decodeWord 0b000001_10010_00000_1000101000110101 = .ok (.bltz 18 0x8A35) ∧
    decodeWord 0b000001_10010_00001_1000101000110101 = .ok (.bgez 18 0x8A35) ∧
    decodeWord 0b000001_10010_10000_1000101000110101 = .ok (.bltzal 18 0x8A35) ∧
    decodeWord 0b000001_10010_10001_1000101000110101 = .ok (.bgezal 18 0x8A35) := by decide

/-- The words of jump, bit by bit: register S 18, T 7, D 25, amount 21, immediate 0x8A35. -/
theorem test_decode_jump :
    decodeWord 0b000010_10110000111100001111000011 = .ok (.j 0x2c3c3c3) ∧
    decodeWord 0b000011_10110000111100001111000011 = .ok (.jal 0x2c3c3c3) ∧
    decodeWord 0b000000_10010_00000_00000_00000_001000 = .ok (.jr 18) ∧
    decodeWord 0b000000_10010_00000_11001_00000_001001 = .ok (.jalr 25 18) := by decide

/-- The words of load_store, bit by bit: register S 18, T 7, D 25, amount 21, immediate 0x8A35. -/
theorem test_decode_load_store :
    decodeWord 0b100000_10010_00111_1000101000110101 = .ok (.lb 7 18 0x8A35) ∧
    decodeWord 0b100100_10010_00111_1000101000110101 = .ok (.lbu 7 18 0x8A35) ∧
    decodeWord 0b100001_10010_00111_1000101000110101 = .ok (.lh 7 18 0x8A35) ∧
    decodeWord 0b100101_10010_00111_1000101000110101 = .ok (.lhu 7 18 0x8A35) ∧
    decodeWord 0b100011_10010_00111_1000101000110101 = .ok (.lw 7 18 0x8A35) ∧
    decodeWord 0b100010_10010_00111_1000101000110101 = .ok (.lwl 7 18 0x8A35) ∧
    decodeWord 0b100110_10010_00111_1000101000110101 = .ok (.lwr 7 18 0x8A35) ∧
    decodeWord 0b101000_10010_00111_1000101000110101 = .ok (.sb 7 18 0x8A35) ∧
    decodeWord 0b101001_10010_00111_1000101000110101 = .ok (.sh 7 18 0x8A35) ∧
    decodeWord 0b101011_10010_00111_1000101000110101 = .ok (.sw 7 18 0x8A35) := by decide

/-- The zero word, a truncated word and words that no table names are refused by name (30_encoding R79, R80). -/
theorem test_decode_refuses :
    decodeWord 0 = .error .zeroWord ∧ decodeBytes [0x01, 0x09, 0x50] = .error .truncated ∧
    decodeWord 0b000000_00000_00000_00000_00000_001100 = .error .unknownEncoding ∧
    decodeWord 0b000001_00000_00010_0000000000000000 = .error .unknownEncoding ∧
    decodeWord 0b100111_00000_00000_0000000000000000 = .error .unknownEncoding := by decide

/-- The host's numbering: bit 0 is the least significant bit of the word, whose first byte is its highest. -/
theorem test_decodeTableWord :
    decodeTableWord 32 0x01095020 = some (.add 10 8 9) ∧
    decodeBytes [0x01, 0x09, 0x50, 0x20, 0xFF] = .ok (.add 10 8 9, [0xFF]) ∧
    encode (.add 10 8 9) = 0x01095020 := by decide

/-- Fields an instruction does not use are ignored (30_encoding R77), so a nonzero word may run `sll $0, $0, 0`. -/
theorem test_decode_ignores_unused_fields :
    decodeWord 0x008517E0 = .ok (.add 2 4 5) ∧ decodeWord 0x00200000 = .ok (.sll 0 0 0) := by decide

/-! ### One step -/

/-- A state after reset with some registers written. -/
def start (rs : List (RegIdx × Word)) : State := rs.foldl (fun s r => s.writeReg r.1 r.2) State.reset

/-- What `f` reads in the next state, where there is one. -/
def nextOf {α : Type} (r : StepResult) (f : State → α) : Option α :=
  match r with
  | .next t => some (f t)
  | .fault _ => none
  | .refused _ => none

/-- What `f` reads after the step that runs the word `w`. -/
def after {α : Type} (s : State) (w : Nat) (f : State → α) : Option α := nextOf (step (s.withFetchWord 32 w)) f

/-- DMEM with 0xAABBCCDD in its first word. -/
def wordABCD : Memory := [(0x20000000, 0xAA), (0x20000001, 0xBB), (0x20000002, 0xCC), (0x20000003, 0xDD)]

/-- The parameters with UNKNOWN_ENCODING = invalid_instruction. -/
def strictDecoding : Params := { Params.defaults with unknownEncoding := .invalidInstruction }

/-- The parameters with R0_HARDWIRED = false. -/
def softZero : Params := { Params.defaults with r0Hardwired := false }

/-- `add t2, t0, t1`, vector V-A01 of 95_test_vectors. -/
theorem test_add_A01 :
    after (start [(8, 0x00000005), (9, 0xFFFFFFFD)]) 0x01095020 (fun t => (t.readReg 10, t.pc, t.npc)) =
      some (0x00000002, 0x10000004, 0x10000008) := by decide

/-- `add t2, t0, t1`, vector V-A02 of 95_test_vectors. -/
theorem test_add_A02 :
    after (start [(8, 0x7FFFFFFF), (9, 0x00000001)]) 0x01095020 (fun t => t.status) =
      some (.faulted .arithmeticOverflow 0xF6) := by decide

/-- `addu t2, t0, t1`, vector V-A07 of 95_test_vectors. -/
theorem test_addu_A07 :
    after (start [(8, 0xFFFFFFFF), (9, 0x00000001)]) 0x01095021 (fun t => (t.readReg 10, t.pc, t.npc)) =
      some (0x00000000, 0x10000004, 0x10000008) := by decide

/-- `sub t2, t0, t1`, vector V-A11 of 95_test_vectors. -/
theorem test_sub_A11 :
    after (start [(8, 0xFFFFFFFF), (9, 0x80000000)]) 0x01095022 (fun t => (t.readReg 10, t.pc, t.npc)) =
      some (0x7FFFFFFF, 0x10000004, 0x10000008) := by decide

/-- `sub t2, t0, t1`, vector V-A10 of 95_test_vectors. -/
theorem test_sub_A10 :
    after (start [(8, 0x00000000), (9, 0x80000000)]) 0x01095022 (fun t => t.status) =
      some (.faulted .arithmeticOverflow 0xF6) := by decide

/-- `subu t2, t0, t1`, vector V-A12 of 95_test_vectors. -/
theorem test_subu_A12 :
    after (start [(8, 0x80000000), (9, 0x00000001)]) 0x01095023 (fun t => (t.readReg 10, t.pc, t.npc)) =
      some (0x7FFFFFFF, 0x10000004, 0x10000008) := by decide

/-- `addi t1, t0, -32768`, vector V-A15 of 95_test_vectors. -/
theorem test_addi_A15 :
    after (start [(8, 0x00000000)]) 0x21098000 (fun t => (t.readReg 9, t.pc, t.npc)) =
      some (0xFFFF8000, 0x10000004, 0x10000008) := by decide

/-- `addi t1, t0, 1`, vector V-A13 of 95_test_vectors. -/
theorem test_addi_A13 :
    after (start [(8, 0x7FFFFFFF)]) 0x21090001 (fun t => t.status) =
      some (.faulted .arithmeticOverflow 0xF6) := by decide

/-- `addiu t1, t0, 1`, vector V-A16 of 95_test_vectors. -/
theorem test_addiu_A16 :
    after (start [(8, 0xFFFFFFFF)]) 0x25090001 (fun t => (t.readReg 9, t.pc, t.npc)) =
      some (0x00000000, 0x10000004, 0x10000008) := by decide

/-- `slt t2, t0, t1`, vector V-A18 of 95_test_vectors. -/
theorem test_slt_A18 :
    after (start [(8, 0x80000000), (9, 0x00000001)]) 0x0109502A (fun t => (t.readReg 10, t.pc, t.npc)) =
      some (0x00000001, 0x10000004, 0x10000008) := by decide

/-- `sltu t2, t0, t1`, vector V-A19 of 95_test_vectors. -/
theorem test_sltu_A19 :
    after (start [(8, 0x80000000), (9, 0x00000001)]) 0x0109502B (fun t => (t.readReg 10, t.pc, t.npc)) =
      some (0x00000000, 0x10000004, 0x10000008) := by decide

/-- `slti t1, t0, 0`, vector V-A22 of 95_test_vectors. -/
theorem test_slti_A22 :
    after (start [(8, 0xFFFFFFFF)]) 0x29090000 (fun t => (t.readReg 9, t.pc, t.npc)) =
      some (0x00000001, 0x10000004, 0x10000008) := by decide

/-- `sltiu t1, t0, 0x8000`, vector V-A24 of 95_test_vectors. -/
theorem test_sltiu_A24 :
    after (start [(8, 0x00001000)]) 0x2D098000 (fun t => (t.readReg 9, t.pc, t.npc)) =
      some (0x00000001, 0x10000004, 0x10000008) := by decide

/-- `lui t1, 0xFFFF`, vector V-A27 of 95_test_vectors. -/
theorem test_lui_A27 :
    after (start [(9, 0x00001234)]) 0x3C09FFFF (fun t => (t.readReg 9, t.pc, t.npc)) =
      some (0xFFFF0000, 0x10000004, 0x10000008) := by decide

/-- `and t2, t0, t1`, vector V-A28 of 95_test_vectors. -/
theorem test_and_A28 :
    after (start [(8, 0xFF00FF00), (9, 0x0F0F0F0F)]) 0x01095024 (fun t => (t.readReg 10, t.pc, t.npc)) =
      some (0x0F000F00, 0x10000004, 0x10000008) := by decide

/-- `or t2, t0, t1`, vector V-A29 of 95_test_vectors. -/
theorem test_or_A29 :
    after (start [(8, 0xFF00FF00), (9, 0x0F0F0F0F)]) 0x01095025 (fun t => (t.readReg 10, t.pc, t.npc)) =
      some (0xFF0FFF0F, 0x10000004, 0x10000008) := by decide

/-- `xor t2, t0, t0`, vector V-A30 of 95_test_vectors. -/
theorem test_xor_A30 :
    after (start [(8, 0xDEADBEEF)]) 0x01085026 (fun t => (t.readReg 10, t.pc, t.npc)) =
      some (0x00000000, 0x10000004, 0x10000008) := by decide

/-- `andi t1, t0, 0x8001`, vector V-A31 of 95_test_vectors. -/
theorem test_andi_A31 :
    after (start [(8, 0xFFFFFFFF)]) 0x31098001 (fun t => (t.readReg 9, t.pc, t.npc)) =
      some (0x00008001, 0x10000004, 0x10000008) := by decide

/-- `ori t1, zero, 0x8000`, vector V-A32 of 95_test_vectors. -/
theorem test_ori_A32 :
    after State.reset 0x34098000 (fun t => (t.readReg 9, t.pc, t.npc)) =
      some (0x00008000, 0x10000004, 0x10000008) := by decide

/-- `xori t1, t0, 0xFFFF`, vector V-A33 of 95_test_vectors. -/
theorem test_xori_A33 :
    after (start [(8, 0x12345678)]) 0x3909FFFF (fun t => (t.readReg 9, t.pc, t.npc)) =
      some (0x1234A987, 0x10000004, 0x10000008) := by decide

/-- `mult t0, t1`, vector V-M03 of 95_test_vectors. -/
theorem test_mult_M03 :
    after (start [(8, 0xFFFFFFFF), (9, 0x00000001)]) 0x01090018 (fun t => (t.hi, t.lo, t.pc, t.npc)) =
      some (0xFFFFFFFF, 0xFFFFFFFF, 0x10000004, 0x10000008) := by decide

/-- `multu t0, t1`, vector V-M05 of 95_test_vectors. -/
theorem test_multu_M05 :
    after (start [(8, 0xFFFFFFFF), (9, 0xFFFFFFFF)]) 0x01090019 (fun t => (t.hi, t.lo, t.pc, t.npc)) =
      some (0xFFFFFFFE, 0x00000001, 0x10000004, 0x10000008) := by decide

/-- `div t0, t1`, vector V-M08 of 95_test_vectors. -/
theorem test_div_M08 :
    after (start [(8, 0xFFFFFFF9), (9, 0x00000002)]) 0x0109001A (fun t => (t.hi, t.lo, t.pc, t.npc)) =
      some (0xFFFFFFFF, 0xFFFFFFFD, 0x10000004, 0x10000008) := by decide

/-- `div t0, t1`, vector V-M12 of 95_test_vectors. -/
theorem test_div_M12 :
    after (start [(8, 0x80000000), (9, 0xFFFFFFFF)]) 0x0109001A (fun t => (t.hi, t.lo, t.pc, t.npc)) =
      some (0x00000000, 0x80000000, 0x10000004, 0x10000008) := by decide

/-- `divu t0, t1`, vector V-M14 of 95_test_vectors. -/
theorem test_divu_M14 :
    after (start [(8, 0xFFFFFFFF), (9, 0x00000002)]) 0x0109001B (fun t => (t.hi, t.lo, t.pc, t.npc)) =
      some (0x00000001, 0x7FFFFFFF, 0x10000004, 0x10000008) := by decide

/-- `divu t0, t1`, vector V-M16 of 95_test_vectors. -/
theorem test_divu_M16 :
    after { start [(8, 0x00000007), (9, 0x00000000)] with hi := 0x11111111, lo := 0x22222222 } 0x0109001B
        (fun t => (t.hi, t.lo, t.pc, t.npc)) =
      some (0x11111111, 0x22222222, 0x10000004, 0x10000008) := by decide

/-- `mfhi t0`, vector V-M17 of 95_test_vectors. -/
theorem test_mfhi_M17 :
    after { State.reset with hi := 0x12345678, lo := 0x00000001 } 0x00004010 (fun t => (t.readReg 8, t.pc, t.npc)) =
      some (0x12345678, 0x10000004, 0x10000008) := by decide

/-- `mflo t0`, vector V-M18 of 95_test_vectors. -/
theorem test_mflo_M18 :
    after { State.reset with hi := 0x00000001, lo := 0x0000002A } 0x00004012 (fun t => (t.readReg 8, t.pc, t.npc)) =
      some (0x0000002A, 0x10000004, 0x10000008) := by decide

/-- `mthi t0`, vector V-M19 of 95_test_vectors. -/
theorem test_mthi_M19 :
    after (start [(8, 0xDEADBEEF)]) 0x01000011 (fun t => (t.hi, t.pc, t.npc)) =
      some (0xDEADBEEF, 0x10000004, 0x10000008) := by decide

/-- `mtlo t0`, vector V-M20 of 95_test_vectors. -/
theorem test_mtlo_M20 :
    after { start [(8, 0x00000001)] with hi := 0x00000005, lo := 0x00000000 } 0x01000013
        (fun t => (t.lo, t.pc, t.npc)) =
      some (0x00000001, 0x10000004, 0x10000008) := by decide

/-- `sll t1, t0, 31`, vector V-S02 of 95_test_vectors. -/
theorem test_sll_S02 :
    after (start [(8, 0x00000003)]) 0x00084FC0 (fun t => (t.readReg 9, t.pc, t.npc)) =
      some (0x80000000, 0x10000004, 0x10000008) := by decide

/-- `srl t1, t0, 31`, vector V-S04 of 95_test_vectors. -/
theorem test_srl_S04 :
    after (start [(8, 0x80000000)]) 0x00084FC2 (fun t => (t.readReg 9, t.pc, t.npc)) =
      some (0x00000001, 0x10000004, 0x10000008) := by decide

/-- `sra t1, t0, 31`, vector V-S06 of 95_test_vectors. -/
theorem test_sra_S06 :
    after (start [(8, 0x80000000)]) 0x00084FC3 (fun t => (t.readReg 9, t.pc, t.npc)) =
      some (0xFFFFFFFF, 0x10000004, 0x10000008) := by decide

/-- `sllv t2, t0, t1`, vector V-S09 of 95_test_vectors. -/
theorem test_sllv_S09 :
    after (start [(8, 0x00000003), (9, 0x00000021)]) 0x01285004 (fun t => (t.readReg 10, t.pc, t.npc)) =
      some (0x00000006, 0x10000004, 0x10000008) := by decide

/-- `srlv t2, t0, t1`, vector V-S11 of 95_test_vectors. -/
theorem test_srlv_S11 :
    after (start [(8, 0x80000000), (9, 0xFFFFFFFF)]) 0x01285006 (fun t => (t.readReg 10, t.pc, t.npc)) =
      some (0x00000001, 0x10000004, 0x10000008) := by decide

/-- `srav t2, t0, t1`, vector V-S12 of 95_test_vectors. -/
theorem test_srav_S12 :
    after (start [(8, 0x80000000), (9, 0x00000004)]) 0x01285007 (fun t => (t.readReg 10, t.pc, t.npc)) =
      some (0xF8000000, 0x10000004, 0x10000008) := by decide

/-- `beq t0, t1, #3`, vector V-B01 of 95_test_vectors. -/
theorem test_beq_B01 :
    after (start [(8, 0x00000009), (9, 0x00000009)]) 0x11090003 (fun t => (t.pc, t.npc)) =
      some (0x10000004, 0x10000010) := by decide

/-- `beq zero, zero, #4`, vector V-B20 of 95_test_vectors. -/
theorem test_beq_B20 :
    after { State.reset with pc := 0x10000010, npc := 0x10000200 } 0x10000004 (fun t => (t.pc, t.npc)) =
      some (0x10000200, 0x10000210) := by decide

/-- `bne t0, t1, #0xFFFC`, vector V-B05 of 95_test_vectors. -/
theorem test_bne_B05 :
    after { start [(8, 0x00000001), (9, 0x00000000)] with pc := 0x10000020, npc := 0x10000024 } 0x1509FFFC
        (fun t => (t.pc, t.npc)) =
      some (0x10000024, 0x10000014) := by decide

/-- `blez t0, #0x10`, vector V-B07 of 95_test_vectors. -/
theorem test_blez_B07 :
    after (start [(8, 0x00000000)]) 0x19000010 (fun t => (t.pc, t.npc)) =
      some (0x10000004, 0x10000044) := by decide

/-- `blez t0, #0x10`, vector V-B09 of 95_test_vectors. -/
theorem test_blez_B09 :
    after (start [(8, 0x7FFFFFFF)]) 0x19000010 (fun t => (t.pc, t.npc)) =
      some (0x10000004, 0x10000008) := by decide

/-- `bgtz t0, #0x10`, vector V-B10 of 95_test_vectors. -/
theorem test_bgtz_B10 :
    after (start [(8, 0x00000001)]) 0x1D000010 (fun t => (t.pc, t.npc)) =
      some (0x10000004, 0x10000044) := by decide

/-- `bgtz t0, #0x10`, vector V-B11 of 95_test_vectors. -/
theorem test_bgtz_B11 :
    after (start [(8, 0x00000000)]) 0x1D000010 (fun t => (t.pc, t.npc)) =
      some (0x10000004, 0x10000008) := by decide

/-- `bltz t0, #0x10`, vector V-B12 of 95_test_vectors. -/
theorem test_bltz_B12 :
    after (start [(8, 0xFFFFFFFF)]) 0x05000010 (fun t => (t.pc, t.npc)) =
      some (0x10000004, 0x10000044) := by decide

/-- `bltz t0, #0x10`, vector V-B13 of 95_test_vectors. -/
theorem test_bltz_B13 :
    after (start [(8, 0x00000000)]) 0x05000010 (fun t => (t.pc, t.npc)) =
      some (0x10000004, 0x10000008) := by decide

/-- `bgez t0, #0x10`, vector V-B14 of 95_test_vectors. -/
theorem test_bgez_B14 :
    after (start [(8, 0x00000000)]) 0x05010010 (fun t => (t.pc, t.npc)) =
      some (0x10000004, 0x10000044) := by decide

/-- `bgez t0, #0x10`, vector V-B15 of 95_test_vectors. -/
theorem test_bgez_B15 :
    after (start [(8, 0x80000000)]) 0x05010010 (fun t => (t.pc, t.npc)) =
      some (0x10000004, 0x10000008) := by decide

/-- `bltzal t0, #0x10`, vector V-B16 of 95_test_vectors. -/
theorem test_bltzal_B16 :
    after { start [(8, 0x80000000)] with pc := 0x10000100, npc := 0x10000104 } 0x05100010
        (fun t => (t.readReg 31, t.pc, t.npc)) =
      some (0x10000108, 0x10000104, 0x10000144) := by decide

/-- `bltzal t0, #0x10`, vector V-B17 of 95_test_vectors. -/
theorem test_bltzal_B17 :
    after { start [(8, 0x00000001)] with pc := 0x10000100, npc := 0x10000104 } 0x05100010
        (fun t => (t.readReg 31, t.pc, t.npc)) =
      some (0x10000108, 0x10000104, 0x10000108) := by decide

/-- `bgezal zero, #0x10`, vector V-B18 of 95_test_vectors. -/
theorem test_bgezal_B18 :
    after State.reset 0x04110010 (fun t => (t.readReg 31, t.pc, t.npc)) =
      some (0x10000008, 0x10000004, 0x10000044) := by decide

/-- `bgezal ra, #0x10`, vector V-B19 of 95_test_vectors. -/
theorem test_bgezal_B19 :
    after (start [(31, 0x80000000)]) 0x07F10010 (fun t => (t.readReg 31, t.pc, t.npc)) =
      some (0x10000008, 0x10000004, 0x10000008) := by decide

/-- `.word 0x08000004`, vector V-J01 of 95_test_vectors. -/
theorem test_j_J01 :
    after { State.reset with pc := 0x10000008, npc := 0x1000000C } 0x08000004 (fun t => (t.pc, t.npc)) =
      some (0x1000000C, 0x10000010) := by decide

/-- `.word 0x0C000010`, vector V-J03 of 95_test_vectors. -/
theorem test_jal_J03 :
    after State.reset 0x0C000010 (fun t => (t.readReg 31, t.pc, t.npc)) =
      some (0x10000008, 0x10000004, 0x10000040) := by decide

/-- `jr t0`, vector V-J04 of 95_test_vectors. -/
theorem test_jr_J04 :
    after (start [(8, 0x10000040)]) 0x01000008 (fun t => (t.pc, t.npc)) =
      some (0x10000004, 0x10000040) := by decide

/-- `jalr t0, t0`, vector V-J08 of 95_test_vectors. -/
theorem test_jalr_J08 :
    after { start [(8, 0x10000100)] with pc := 0x10000020, npc := 0x10000024 } 0x01004009
        (fun t => (t.readReg 8, t.pc, t.npc)) =
      some (0x10000028, 0x10000024, 0x10000100) := by decide

/-- `lb t1, 0(t0)`, vector V-L01 of 95_test_vectors. -/
theorem test_lb_L01 :
    after { start [(8, 0x20000000)] with dmem := wordABCD } 0x81090000 (fun t => (t.readReg 9, t.pc, t.npc)) =
      some (0xFFFFFFAA, 0x10000004, 0x10000008) := by decide

/-- `lb t1, 0(t0)`, vector V-L27 of 95_test_vectors. -/
theorem test_lb_L27 :
    after { start [(8, 0x30000000)] with input := [200] } 0x81090000 (fun t => (t.readReg 9, t.input, t.pc, t.npc)) =
      some (0xFFFFFFC8, [], 0x10000004, 0x10000008) := by decide

/-- `lbu t1, 1(t0)`, vector V-L02 of 95_test_vectors. -/
theorem test_lbu_L02 :
    after { start [(8, 0x20000000)] with dmem := wordABCD } 0x91090001 (fun t => (t.readReg 9, t.pc, t.npc)) =
      some (0x000000BB, 0x10000004, 0x10000008) := by decide

/-- `lh t1, 2(t0)`, vector V-L03 of 95_test_vectors. -/
theorem test_lh_L03 :
    after { start [(8, 0x20000000)] with dmem := wordABCD } 0x85090002 (fun t => (t.readReg 9, t.pc, t.npc)) =
      some (0xFFFFCCDD, 0x10000004, 0x10000008) := by decide

/-- `lh t1, 1(t0)`, vector V-L04 of 95_test_vectors. -/
theorem test_lh_L04 :
    after { start [(8, 0x20000000)] with dmem := wordABCD } 0x85090001 (fun t => t.status) =
      some (.faulted (.memoryFault 0x20000001) 0xF5) := by decide

/-- `lhu t1, 0(t0)`, vector V-L05 of 95_test_vectors. -/
theorem test_lhu_L05 :
    after { start [(8, 0x20000000)] with dmem := wordABCD } 0x95090000 (fun t => (t.readReg 9, t.pc, t.npc)) =
      some (0x0000AABB, 0x10000004, 0x10000008) := by decide

/-- `lw t1, -16(t0)`, vector V-L08 of 95_test_vectors. -/
theorem test_lw_L08 :
    after { start [(8, 0x20000010)] with dmem := wordABCD } 0x8D09FFF0 (fun t => (t.readReg 9, t.pc, t.npc)) =
      some (0xAABBCCDD, 0x10000004, 0x10000008) := by decide

/-- `lw t1, 0(t0)`, vector V-L25 of 95_test_vectors. -/
theorem test_lw_L25 :
    after { start [(8, 0x30000000)] with input := [65, 66] } 0x8D090000 (fun t => (t.readReg 9, t.input, t.pc, t.npc)) =
      some (0x00000041, [66], 0x10000004, 0x10000008) := by decide

/-- `lwl t1, 1(t0)`, vector V-L13 of 95_test_vectors. -/
theorem test_lwl_L13 :
    after { start [(8, 0x20000000), (9, 0x11223344)] with dmem := wordABCD } 0x89090001
        (fun t => (t.readReg 9, t.pc, t.npc)) =
      some (0xBBCCDD44, 0x10000004, 0x10000008) := by decide

/-- `lwl t1, 1(t0)`, vector V-L19 of 95_test_vectors. -/
theorem test_lwl_L19 :
    after (start [(8, 0x30000000)]) 0x89090001 (fun t => t.status) =
      some (.faulted (.memoryFault 0x30000001) 0xF5) := by decide

/-- `lwr t1, 1(t0)`, vector V-L16 of 95_test_vectors. -/
theorem test_lwr_L16 :
    after { start [(8, 0x20000000), (9, 0x11223344)] with dmem := wordABCD } 0x99090001
        (fun t => (t.readReg 9, t.pc, t.npc)) =
      some (0x1122AABB, 0x10000004, 0x10000008) := by decide

/-- `sb t1, 3(t0)`, vector V-L20 of 95_test_vectors. -/
theorem test_sb_L20 :
    after (start [(8, 0x20000000), (9, 0x12345678)]) 0xA1090003 (fun t => (t.dmem, t.pc, t.npc)) =
      some ([(0x20000003, 0x78)], 0x10000004, 0x10000008) := by decide

/-- `sb t1, 4(t0)`, vector V-L32 of 95_test_vectors. -/
theorem test_sb_L32 :
    after (start [(8, 0x30000000), (9, 0x0000000A)]) 0xA1090004 (fun t => (t.output, t.pc, t.npc)) =
      some ([10], 0x10000004, 0x10000008) := by decide

/-- `sh t1, 2(t0)`, vector V-L21 of 95_test_vectors. -/
theorem test_sh_L21 :
    after (start [(8, 0x20000000), (9, 0x12345678)]) 0xA5090002 (fun t => (t.dmem, t.pc, t.npc)) =
      some ([(0x20000002, 0x56), (0x20000003, 0x78)], 0x10000004, 0x10000008) := by decide

/-- `sh t1, 4(t0)`, vector V-L34 of 95_test_vectors. -/
theorem test_sh_L34 :
    after (start [(8, 0x30000000), (9, 0x00000041)]) 0xA5090004 (fun t => t.status) =
      some (.faulted (.memoryFault 0x30000004) 0xF5) := by decide

/-- `sw t1, 0(t0)`, vector V-L23 of 95_test_vectors. -/
theorem test_sw_L23 :
    after (start [(8, 0x20000000), (9, 0xAABBCCDD)]) 0xAD090000 (fun t => (t.dmem, t.pc, t.npc)) =
      some ([(0x20000000, 0xAA), (0x20000001, 0xBB), (0x20000002, 0xCC), (0x20000003, 0xDD)], 0x10000004, 0x10000008) :=
    by decide

/-- `sw t1, 4(t0)`, vector V-L31 of 95_test_vectors. -/
theorem test_sw_L31 :
    after (start [(8, 0x30000000), (9, 0x12345641)]) 0xAD090004 (fun t => (t.output, t.pc, t.npc)) =
      some ([65], 0x10000004, 0x10000008) := by decide

/-- `.word 0x00000000`, vector V-E01 of 95_test_vectors. -/
theorem test_zero_word_E01 :
    after (start [(2, 0x00001234)]) 0x00000000 (fun t => t.status) =
      some (.halted 0x34) := by decide

/-- `.word 0x0000000C`, vector V-E03 of 95_test_vectors. -/
theorem test_unknown_E03 :
    after (start [(2, 0x00000007)]) 0x0000000C (fun t => (t.pc, t.npc)) =
      some (0x10000004, 0x10000008) := by decide

/-- `.word 0x0000000C`, vector V-E04 of 95_test_vectors. -/
theorem test_unknown_E04 :
    after { start [(2, 0x00000007)] with params := strictDecoding } 0x0000000C (fun t => t.status) =
      some (.faulted .invalidInstruction 0xF4) := by decide

/-- A write to register 0, hard-wired and not, vectors V-A34 and V-A35 of 95_test_vectors. -/
theorem test_register_zero :
    after State.reset 0x24000005 (fun t => t.readReg 0) = some 0 ∧
    after { State.reset with params := softZero } 0x24000005 (fun t => t.readReg 0) = some 5 := by decide

/-- The halt at the null address, with the low byte of register 2 (40_engine R91, R93). -/
theorem test_null_pc :
    nextOf (step { start [(2, 0x00001234)] with pc := 0 }) (fun t => (t.status, t.pc)) =
      some (.halted 0x34, 0) := by decide

/-- A fetch past the end of IMEM and a misaligned fetch (40_engine R92). -/
theorem test_fetch_faults :
    nextOf (step { State.reset with pc := 0x11000000 }) (fun t => t.status) =
      some (.faulted (.memoryFault 0x11000000) 0xF5) ∧
    nextOf (step { State.reset with pc := 0x10000002 }) (fun t => t.status) =
      some (.faulted (.memoryFault 0x10000002) 0xF5) := by decide

/-- The loader places an image's first byte at the reset pc (70 R252). -/
theorem test_boot :
    (State.boot Params.defaults [0x24, 0x02, 0x00, 0x05] []).imem =
      [(0x10000000, 0x24), (0x10000001, 0x02), (0x10000003, 0x05)] ∧
    fetch (State.boot Params.defaults [0x24, 0x02, 0x00, 0x05] []) 0x10000000 = some 0x24020005 := by decide

/-! ### Witnesses: for each statement with hypotheses, states and operands that meet them -/

/-- A running state at `pc` with `w` in the word there and some registers written. -/
def atPc (pc : Word) (w : Nat) (rs : List (RegIdx × Word)) : State :=
  State.withFetchWord { start rs with pc := pc, npc := pc + 4 } 32 w

theorem next_of_nextOf {α : Type} {r : StepResult} {f : State → α} {x : α} (h : nextOf r f = some x) :
    ∃ t, r = .next t ∧ f t = x := by
  cases r with
  | next t => exact ⟨t, rfl, by simpa [nextOf] using h⟩
  | fault _ => cases h
  | refused _ => cases h

/-- A decidable property checked member by member of a list. -/
theorem forall_of_all {α : Type} {l : List α} {P : α → Prop} [DecidablePred P]
    (h : (l.all fun a => decide (P a)) = true) : ∀ a ∈ l, P a := by
  simpa using h

theorem witness_DecodeOfEncodeIsTheInstruction :
    (Instr.j 0x3FFFFFF).wellFormed = true ∧ (Instr.sll 0 0 1).wellFormed = true := by decide

theorem witness_DecodeReadsExactlyTheUsedBits :
    decodeWord 0x008517E0 = .ok (.add 2 4 5) ∧
    (0x008517E0 : Word) &&& (Instr.add 2 4 5).usedMask = encode (.add 2 4 5) ∧
    (0x04020000 : Word) &&& (Instr.bltz 0 0).usedMask ≠ encode (.bltz 0 0) := by decide

theorem witness_EveryWordIsZeroInstructionOrUnknown :
    decodeWord 0 = .error .zeroWord ∧ decodeWord 0x0000000C = .error .unknownEncoding ∧
    (∀ row ∈ opcodeTable, row.hasWord 0x0000000C = false) ∧ decodeWord 0x04110010 = .ok (.bgezal 0 0x10) := by decide

theorem witness_StepRunsTheDecodedInstruction :
    ∃ (s : State) (b0 b1 b2 b3 : Byte) (i : Instr), s.status = .running ∧ s.pc.toNat % 4 = 0 ∧ InInstr s.pc ∧
      b0 = Memory.read s.imem s.pc.toNat ∧ b1 = Memory.read s.imem (s.pc.toNat + 1) ∧
      b2 = Memory.read s.imem (s.pc.toNat + 2) ∧ b3 = Memory.read s.imem (s.pc.toNat + 3) ∧
      decodeBytes [b0, b1, b2, b3] = .ok (i, []) :=
  ⟨atPc 0x10FFFFFC 0x01095020 [], 0x01, 0x09, 0x50, 0x20, .add 10 8 9, by decide, by decide, by decide,
    by decide, by decide, by decide, by decide, by decide⟩

theorem witness_UnknownWordFollowsThePolicy_nop :
    ∃ s w, Fetches s w ∧ decodeWord w = .error .unknownEncoding ∧ s.params.unknownEncoding = .nop :=
  ⟨atPc 0x10FFFFFC 0x0000000C [], 0x0000000C, ⟨by decide, by decide, by decide, by decide⟩,
    by decide, by decide⟩

theorem witness_UnknownWordFollowsThePolicy_invalid :
    ∃ s w, Fetches s w ∧ decodeWord w = .error .unknownEncoding ∧ s.params.unknownEncoding = .invalidInstruction :=
  ⟨{ atPc 0x10000000 0x04020000 [] with params := strictDecoding }, 0x04020000,
    ⟨by decide, by decide, by decide, by decide⟩, by decide, by decide⟩

theorem witness_NullPcHalts : ∃ s : State, s.status = .running ∧ s.pc = 0 := ⟨atPc 0 0 [], by decide, by decide⟩

theorem witness_HaltStatusIsTheLowByteOfRegisterTwo : ∃ s t c, step s = .next t ∧ t.status = .halted c := by
  obtain ⟨t, h, k⟩ := next_of_nextOf (r := step (atPc 0x10FFFFFC 0 [(2, 0x1234)])) (f := fun t => t.status)
    (x := .halted 0x34) (by decide)
  exact ⟨_, t, _, h, k⟩

theorem witness_ZeroWordHalts : Fetches State.reset 0 ∧ Fetches (atPc 0x10FFFFFC 0 [(2, 7)]) 0 :=
  ⟨⟨by decide, by decide, by decide, by decide⟩, ⟨by decide, by decide, by decide, by decide⟩⟩

theorem witness_FetchReadsTheWordAtPcOrFaults_word :
    (atPc 0x10FFFFFC 0x01095020 []).pc.toNat % 4 = 0 ∧ InInstr (atPc 0x10FFFFFC 0x01095020 []).pc := by decide

theorem witness_FetchReadsTheWordAtPcOrFaults_fault :
    ∀ a ∈ ([0x00000004, 0x0FFFFFFC, 0x10FFFFFE, 0x11000000, 0x20000000, 0xFFFFFFFC] : List Word),
      (atPc a 0 []).status = .running ∧ (atPc a 0 []).pc ≠ 0 ∧
      ¬ ((atPc a 0 []).pc.toNat % 4 = 0 ∧ InInstr (atPc a 0 []).pc) :=
  forall_of_all (by decide)

theorem witness_EndedRunIsFinal :
    State.reset.halt.status ≠ .running ∧ (State.reset.raise .internalError).status ≠ .running := by decide

theorem witness_RunningCoreAlwaysSteps : (atPc 0x00000003 0 []).status = .running := by decide

theorem witness_FaultingStepChangesOnlyTheStatus :
    (∃ s t c, step s = .next t ∧ t.status = .faulted .arithmeticOverflow c) ∧
    (∃ s t a c, step s = .next t ∧ t.status = .faulted (.memoryFault a) c) ∧
    (∃ s t c, step s = .next t ∧ t.status = .faulted .invalidInstruction c) := by
  obtain ⟨t, h⟩ := next_of_nextOf (r := step (atPc 0x10000000 0x21090001 [(8, 0x7FFFFFFF)])) (f := fun t => t.status)
    (x := .faulted .arithmeticOverflow 0xF6) (by decide)
  obtain ⟨u, g⟩ := next_of_nextOf (r := step (atPc 0x10000000 0x8D090000 [(8, 0x24000000)])) (f := fun t => t.status)
    (x := .faulted (.memoryFault 0x24000000) 0xF5) (by decide)
  obtain ⟨v, k⟩ := next_of_nextOf (r := step { atPc 0x10000000 0x0000000C [] with params := strictDecoding })
    (f := fun t => t.status) (x := .faulted .invalidInstruction 0xF4) (by decide)
  exact ⟨⟨_, t, _, h⟩, ⟨_, u, _, _, g⟩, ⟨_, v, _, k⟩⟩

theorem witness_OnlyTheseInstructionsFault :
    (∃ i s t, exec i s = .next t ∧ t.status = s.status) ∧
    (∃ i s t k, exec i s = .next t ∧ t.status ≠ s.status ∧ faultOf s i = some k) := by
  obtain ⟨t, h⟩ := next_of_nextOf (r := exec (.and 1 2 3) State.reset) (f := fun t => t.status)
    (x := .running) (by decide)
  obtain ⟨u, g, g'⟩ := next_of_nextOf (r := exec (.lwl 9 8 1) (start [(8, 0x30000000)])) (f := fun t => t.status)
    (x := .faulted (.memoryFault 0x30000001) 0xF5) (by decide)
  exact ⟨⟨_, _, t, h⟩, ⟨_, _, u, .memoryFault 0x30000001, g, by rw [g']; decide, by decide⟩⟩

theorem witness_PcPairAdvancesOrRedirects :
    ∀ p ∈ [(Instr.beq 0 0 0xFFFF, some 0x10000000), (Instr.bne 0 0 1, none), (Instr.add 1 2 3, none)],
      ∃ t, State.reset.status = .running ∧ exec p.1 State.reset = .next t ∧ t.status = .running ∧
        transferTarget State.reset p.1 = p.2 := by
  simp only [List.forall_mem_cons, List.not_mem_nil, false_imp_iff, implies_true, and_true]
  refine ⟨?_, ?_, ?_⟩
  · obtain ⟨t, h, k⟩ := next_of_nextOf (r := exec (.beq 0 0 0xFFFF) State.reset) (f := fun t => t.status)
      (x := .running) (by decide)
    exact ⟨t, rfl, h, k, by decide⟩
  · obtain ⟨t, h, k⟩ := next_of_nextOf (r := exec (.bne 0 0 1) State.reset) (f := fun t => t.status)
      (x := .running) (by decide)
    exact ⟨t, rfl, h, k, by decide⟩
  · obtain ⟨t, h, k⟩ := next_of_nextOf (r := exec (.add 1 2 3) State.reset) (f := fun t => t.status)
      (x := .running) (by decide)
    exact ⟨t, rfl, h, k, by decide⟩

/-- `beq zero, zero, #1` and the word of its delay slot. -/
def branchThenSlot : State := State.boot Params.defaults [0x10, 0x00, 0x00, 0x01, 0x24, 0x02, 0x00, 0x05] []

theorem witness_DelaySlotExecutesBeforeTheTarget :
    (∃ w i target, Fetches branchThenSlot w ∧ decodeWord w = .ok i ∧ branchThenSlot.npc = branchThenSlot.pc + 4 ∧
      transferTarget branchThenSlot i = some target) ∧
    ∃ t u, step branchThenSlot = .next t ∧ step t = .next u ∧ u.status = .running := by
  refine ⟨⟨0x10000001, .beq 0 0 1, 0x10000008,
    ⟨by decide, by decide, by decide, by decide⟩, by decide, by decide, by decide⟩, ?_⟩
  obtain ⟨t, h, k⟩ := next_of_nextOf (r := step branchThenSlot)
    (f := fun t => nextOf (step t) (fun u => u.status)) (x := some .running) (by decide)
  obtain ⟨u, h', k'⟩ := next_of_nextOf k
  exact ⟨t, u, h, h', k'⟩

/-- The last clause: the delay slot holds the zero word, so its step halts. -/
theorem witness_DelaySlotExecutesBeforeTheTarget_ended :
    ∃ t u, step (atPc 0x10000000 0x10000001 []) = .next t ∧ step t = .next u ∧ u.status ≠ .running := by
  obtain ⟨t, h, k⟩ := next_of_nextOf (r := step (atPc 0x10000000 0x10000001 []))
    (f := fun t => nextOf (step t) (fun u => u.status)) (x := some (.halted 0)) (by decide)
  obtain ⟨u, h', k'⟩ := next_of_nextOf k
  exact ⟨t, u, h, h', by rw [k']; decide⟩

theorem witness_BranchTargetIsRelativeToTheDelaySlot :
    State.reset.npc.toNat % 4 = 0 ∧ State.reset.npc = State.reset.pc + 4 ∧
    branchTarget State.reset 0x8000 = 0x0FFE0004 ∧ branchTarget State.reset 0x7FFF = 0x10020000 := by decide

theorem witness_JumpTargetKeepsTheUpperBitsOfPc :
    (atPc 0x10000000 0 []).pc.toNat % 4 = 0 ∧ InInstr (atPc 0x10000000 0 []).pc ∧
    (atPc 0x10FFFFFC 0 []).pc.toNat % 4 = 0 ∧ InInstr (atPc 0x10FFFFFC 0 []).pc := by decide

theorem witness_TransferInADelaySlot :
    ∃ i1 i2 s t u t1, s.status = .running ∧ exec i1 s = .next t ∧ transferTarget s i1 = some t1 ∧
      exec i2 t = .next u ∧ u.status = .running := by
  obtain ⟨t, h, k⟩ := next_of_nextOf (r := exec (.j 0x4000010) State.reset)
    (f := fun t => nextOf (exec (.bgezal 0 0xFFFF) t) (fun u => u.status)) (x := some .running) (by decide)
  obtain ⟨u, h', k'⟩ := next_of_nextOf k
  exact ⟨_, _, State.reset, t, u, 0x10000040, rfl, h, by decide, h', k'⟩

theorem witness_BootStateFromImageAndInput :
    (∃ image : List Byte, image = [] ∧ image.length ≤ 0x01000000) ∧ (∃ image : List Byte, image.length = 0x01000000) ∧
    ∃ image : List Byte, 0x01000000 < image.length :=
  ⟨⟨[], rfl, by decide⟩, ⟨List.replicate 0x01000000 0, List.length_replicate⟩,
    ⟨List.replicate 0x01000001 0, by rw [List.length_replicate]; decide⟩⟩

theorem witness_StepKeepsTheInvariant : ∃ s t : State, s.Inv ∧ step s = .next t ∧ t.dmem ≠ s.dmem := by
  obtain ⟨t, h, k⟩ := next_of_nextOf (r := step (atPc 0x10FFFFFC 0xA1090000 [(8, 0x23FFFFFF), (9, 0x41)]))
    (f := fun t => t.dmem) (x := [(0x23FFFFFF, 0x41)]) (by decide)
  exact ⟨atPc 0x10FFFFFC 0xA1090000 [(8, 0x23FFFFFF), (9, 0x41)], t,
    ⟨by decide, by decide, fun _ => by decide, trivial⟩, h, by rw [k]; decide⟩

theorem witness_EndedRunsReportTheirExitStatus :
    (∃ p image input t c, Reaches (State.boot p image input) t ∧ t.status = .halted c) ∧
    ∃ p image input t k c, Reaches (State.boot p image input) t ∧ t.status = .faulted k c := by
  obtain ⟨t, h, k⟩ := next_of_nextOf (r := step (State.boot Params.defaults [] [])) (f := fun t => t.status)
    (x := .halted 0) (by decide)
  obtain ⟨u, h', k'⟩ := next_of_nextOf (r := step (State.boot softZero [0x8C, 0x09] [])) (f := fun t => t.status)
    (x := .faulted (.memoryFault 0) 0xF5) (by decide)
  exact ⟨⟨_, _, _, t, _, .step h (.refl t), k⟩, ⟨_, _, _, u, _, _, .step h' (.refl u), k'⟩⟩

theorem witness_PlacedWordIsFetched :
    ∀ a ∈ ([0x10000000, 0x10FFFFFC] : List Word),
      (atPc a 0 []).status = .running ∧ (atPc a 0 []).pc.toNat % 4 = 0 ∧ InInstr (atPc a 0 []).pc ∧
      Memory.wf (atPc a 0 []).imem = true :=
  forall_of_all (by decide)

theorem witness_RegisterWriteThenRead :
    State.reset.params.r0Hardwired = true ∧ ({ State.reset with params := softZero }).params.r0Hardwired = false := by
  decide

theorem witness_OnlyEightInstructionsUseHiLo :
    (∃ t, usesHiLo (.jalr 31 8) = false ∧ exec (.jalr 31 8) State.reset = .next t) ∧ usesHiLo (.mtlo 8) = true :=
  ⟨⟨_, rfl, rfl⟩, rfl⟩

/-- Every instruction in every state meets the hypothesis of InstructionsNeverTouchInstructionMemory and of
StreamsChangeOnlyThroughThePorts. -/
theorem witness_exec_next (i : Instr) (s : State) : ∃ t, exec i s = .next t :=
  let ⟨t, h, _⟩ := exec_effect i s
  ⟨t, h⟩

theorem witness_StepKeepsInstructionMemoryAndParameters : ∃ t, step (atPc 0x10FFFFFC 0xAD090000 []) = .next t :=
  let ⟨t, h, _⟩ := next_of_nextOf (r := step (atPc 0x10FFFFFC 0xAD090000 [])) (f := fun t => t.status)
    (x := .faulted (.memoryFault 0) 0xF5) (by decide)
  ⟨t, h⟩

theorem witness_DataMemoryChangesOnlyWhereStored :
    ∃ (i : Instr) (s t : State) (c : Nat), Memory.wf s.dmem = true ∧ exec i s = .next t ∧
      (∀ a n, storedBytes s i = some (a, n) → ¬ (a.toNat ≤ c ∧ c < a.toNat + n)) ∧ t.dmem ≠ s.dmem := by
  obtain ⟨t, h, k⟩ := next_of_nextOf
    (r := exec (.sb 9 8 0) { start [(8, 0x23FFFFFF), (9, 0x41)] with dmem := wordABCD })
    (f := fun t => t.dmem) (x := wordABCD ++ [(0x23FFFFFF, 0x41)]) (by decide)
  refine ⟨_, _, t, 0x23FFFFFE, by decide, h, fun a n hs => ?_, by rw [k]; decide⟩
  cases hs
  decide

/-- The ends of each region, by width (20_memory R40, R44). -/
theorem witness_AccessPermissions :
    (∀ p ∈ ([(0x20000000, .byte), (0x23FFFFFF, .byte), (0x20000000, .half), (0x23FFFFFE, .half), (0x20000000, .word),
        (0x23FFFFFC, .word), (0x30000000, .byte), (0x30000000, .word)] : List (Word × AccessWidth)),
      (memRead State.reset p.1 p.2).isSome = true) ∧
    (∀ p ∈ ([(0x1FFFFFFF, .byte), (0x24000000, .byte), (0x23FFFFFF, .half), (0x23FFFFFE, .word), (0x10000000, .word),
        (0x30000000, .half), (0x30000001, .byte), (0x30000004, .word), (0, .byte), (0xFFFFFFFC, .word)] :
        List (Word × AccessWidth)),
      (memRead State.reset p.1 p.2).isSome = false) ∧
    (∀ p ∈ ([(0x23FFFFFF, .byte), (0x23FFFFFC, .word), (0x30000004, .byte), (0x30000004, .word)] :
        List (Word × AccessWidth)),
      (memWrite State.reset p.1 p.2 0xFF).isSome = true) ∧
    (∀ p ∈ ([(0x10000000, .byte), (0x30000000, .word), (0x30000004, .half), (0x30000005, .byte), (0x30000008, .word)] :
        List (Word × AccessWidth)),
      (memWrite State.reset p.1 p.2 0xFF).isSome = false) ∧
    (fetch State.reset 0x10FFFFFC).isSome = true ∧ (fetch State.reset 0x20000000).isSome = false := by decide

theorem witness_DataWriteThenReadReturnsTheValue :
    Memory.wf wordABCD = true ∧
    ∀ p ∈ ([(0x20000000, .byte), (0x23FFFFFF, .byte), (0x20000000, .half), (0x23FFFFFE, .half), (0x20000000, .word),
        (0x23FFFFFC, .word)] : List (Word × AccessWidth)),
      p.1.toNat % p.2.bytes = 0 ∧ InData p.1 := by decide

theorem witness_WordIsReadByteByByteInBigEndianOrder :
    Memory.wf wordABCD = true ∧
    ∀ a ∈ ([0x20000000, 0x23FFFFFC] : List Word), a.toNat % 4 = 0 ∧ InData a :=
  ⟨by decide, forall_of_all (by decide)⟩

/-- Each of the six clauses at the ends of the signed range (W3 of 95_test_vectors). -/
theorem witness_OverflowCheckedArithmetic :
    let s := start [(8, 0x7FFFFFFF), (9, 0x80000000), (10, 0xFFFFFFFF), (11, 1)]
    let v (r : RegIdx) := (s.readReg r).toInt
    v 8 + v 0 = 2 ^ 31 - 1 ∧ v 9 + v 0 = -2 ^ 31 ∧ v 8 + v 11 = 2 ^ 31 ∧ v 9 + v 10 = -2 ^ 31 - 1 ∧
    v 10 - v 9 = 2 ^ 31 - 1 ∧ v 9 - v 0 = -2 ^ 31 ∧ v 0 - v 9 = 2 ^ 31 ∧ v 9 - v 11 = -2 ^ 31 - 1 ∧
    v 8 + (0 : BitVec 16).toInt = 2 ^ 31 - 1 ∧ v 8 + (1 : BitVec 16).toInt = 2 ^ 31 ∧
    v 9 + (0xFFFF : BitVec 16).toInt = -2 ^ 31 - 1 := by decide

/-- One word for each opcode, function code and discriminator of the tables (30_encoding R73 to R75). -/
theorem witness_words_of_the_tables :
    (∀ op ∈ ([0x02, 0x03, 0x04, 0x05, 0x06, 0x07, 0x08, 0x09, 0x0A, 0x0B, 0x0C, 0x0D, 0x0E, 0x0F, 0x20, 0x21, 0x22,
        0x23, 0x24, 0x25, 0x26, 0x28, 0x29, 0x2B] : List (BitVec 6)),
      opcodeOf (encodeI op 18 7 0x8A35) = op) ∧
    (∀ fn ∈ ([0x00, 0x02, 0x03, 0x04, 0x06, 0x07, 0x08, 0x09, 0x10, 0x11, 0x12, 0x13, 0x18, 0x19, 0x1A, 0x1B, 0x20,
        0x21, 0x22, 0x23, 0x24, 0x25, 0x26, 0x2A, 0x2B] : List (BitVec 6)),
      encodeR 18 7 25 21 fn ≠ 0 ∧ opcodeOf (encodeR 18 7 25 21 fn) = 0 ∧ functOf (encodeR 18 7 25 21 fn) = fn) ∧
    (∀ d ∈ ([0x00, 0x01, 0x10, 0x11] : List (BitVec 5)),
      opcodeOf (encodeB 18 d 0x8A35) = 0x01 ∧ rtOf (encodeB 18 d 0x8A35) = d) := by decide

/-- The three clauses of DIV and the two of DIVU. -/
theorem witness_SignedDivide_UnsignedDivide :
    let s := start [(8, 0x80000000), (9, 0xFFFFFFFF), (10, 0xFFFFFFF9), (11, 2)]
    s.readReg 0 = 0 ∧ s.readReg 8 = 0x80000000 ∧ s.readReg 9 = 0xFFFFFFFF ∧ s.readReg 11 ≠ 0 ∧
    ¬ (s.readReg 10 = 0x80000000 ∧ s.readReg 11 = 0xFFFFFFFF) ∧
    ¬ (s.readReg 8 = 0x80000000 ∧ s.readReg 11 = 0xFFFFFFFF) := by decide

theorem witness_CallThenReturn :
    (∃ index s t v, Instr.jal index = .jal index ∧ s.npc = s.pc + 4 ∧ exec (.jal index) s = .next t ∧
      exec (.jr 31) t = .next v) ∧
    ∃ r rs s t v, ¬ (r = 0 ∧ s.params.r0Hardwired = true) ∧ s.npc = s.pc + 4 ∧ exec (.jalr r rs) s = .next t ∧
      exec (.jr r) t = .next v :=
  ⟨⟨0x10, State.reset, _, _, rfl, by decide, rfl, rfl⟩,
    ⟨0, 8, { State.reset with params := softZero }, _, _, by decide, by decide, rfl, rfl⟩⟩

/-- The data clause of each load and store at both ends of DMEM, and its alignment. -/
theorem witness_LoadsAndStores_data :
    ∀ p ∈ ([(1, 0x20000000), (1, 0x23FFFFFF), (2, 0x20000000), (2, 0x23FFFFFE), (4, 0x20000000), (4, 0x23FFFFFC)] :
        List (Nat × Word)),
      Memory.wf (start [(8, p.2)]).dmem = true ∧ (effAddr (start [(8, p.2)]) 8 0).toNat % p.1 = 0 ∧
      InData (effAddr (start [(8, p.2)]) 8 0) :=
  forall_of_all (by decide)

/-- The port clauses, through an offset; `n ≠ 2` holds of bytes and words. -/
theorem witness_LoadsAndStores_ports :
    effAddr (start [(8, 0x30000004)]) 8 0xFFFC = 0x30000000 ∧ effAddr (start [(8, 0x30000000)]) 8 4 = 0x30000004 ∧
    (1 : Nat) ≠ 2 ∧ (4 : Nat) ≠ 2 := by decide

/-- The fault clause of loads: misaligned, just outside DMEM, in IMEM, a half or a neighbour of the input port, the
output port, and a sum that wraps to 0. -/
theorem witness_LoadsReadDataOrInputOrFault_fault :
    ∀ p ∈ ([(2, 0x23FFFFFF), (4, 0x23FFFFFE), (1, 0x1FFFFFFF), (1, 0x24000000), (4, 0x10000000), (2, 0x30000000),
        (1, 0x30000001), (4, 0x30000004), (1, 0)] : List (Nat × Word)),
      let ea := effAddr (start [(8, p.2)]) 8 0
      ¬ (ea.toNat % p.1 = 0 ∧ InData ea) ∧ ¬ (ea = 0x30000000 ∧ p.1 ≠ 2) :=
  forall_of_all (by decide)

/-- The fault clause of stores. -/
theorem witness_StoresWriteDataOrOutputOrFault_fault :
    ∀ p ∈ ([(2, 0x23FFFFFF), (4, 0x23FFFFFE), (1, 0x1FFFFFFF), (1, 0x24000000), (4, 0x10000000), (2, 0x30000004),
        (1, 0x30000005), (4, 0x30000000), (4, 0x30000008), (1, 0)] : List (Nat × Word)),
      let ea := effAddr (start [(8, p.2)]) 8 0
      ¬ (ea.toNat % p.1 = 0 ∧ InData ea) ∧ ¬ (ea = 0x30000004 ∧ p.1 ≠ 2) :=
  forall_of_all (by decide)

/-- The three clauses of LWL and LWR, at both ends of DMEM. -/
theorem witness_MergingLoadsFollowTheLanesOrFault :
    (∀ a ∈ ([0x20000000, 0x20000001, 0x23FFFFFE, 0x23FFFFFF] : List Word), InData (effAddr (start [(8, a)]) 8 0)) ∧
    (∀ a ∈ ([0x1FFFFFFF, 0x24000000, 0x30000000, 0x10000001] : List Word), ¬ InData (effAddr (start [(8, a)]) 8 0)) ∧
    (start []).params.lwlrMode = .mips1 ∧
    ({ start [] with params := { Params.defaults with lwlrMode := .uninterpreted } }).params.lwlrMode =
      .uninterpreted :=
  ⟨forall_of_all (by decide), forall_of_all (by decide), by decide, by decide⟩

theorem witness_UnalignedLoadPair :
    ∀ a ∈ ([0x20000000, 0x20000001, 0x23FFFFFB, 0x23FFFFFC] : List Word),
      let s := start [(8, a)]
      s.params.lwlrMode = .mips1 ∧ ¬ ((9 : RegIdx) = 0 ∧ s.params.r0Hardwired = true) ∧
      InData (effAddr s 8 0) ∧ InData (effAddr s 8 0 + 3) ∧
      ∀ t, exec (.lwl 9 8 0) s = .next t → effAddr t 8 3 = effAddr s 8 0 + 3 := by
  have key : ∀ (a : Word) (t : State), exec (.lwl 9 8 0) (start [(8, a)]) = .next t →
      t.readReg 8 = (start [(8, a)]).readReg 8 := by
    intro a t h
    simp only [exec, execLwl, mergeVia] at h
    split at h <;> cases h
    · exact State.readReg_writeReg_ne (by decide)
    · rfl
  have ea : ∀ a ∈ ([0x20000000, 0x20000001, 0x23FFFFFB, 0x23FFFFFC] : List Word),
      InData (effAddr (start [(8, a)]) 8 0) ∧ InData (effAddr (start [(8, a)]) 8 0 + 3) ∧
      (start [(8, a)]).readReg 8 + simm 3 = effAddr (start [(8, a)]) 8 0 + 3 := forall_of_all (by decide)
  intro a ha
  refine ⟨rfl, fun h => absurd h.1 (by decide), (ea a ha).1, (ea a ha).2.1, fun t h => ?_⟩
  rw [effAddr, key a t h, (ea a ha).2.2]

end Sys2Proof.Tests
end

section
/-! PROOFS. The family 10_state: the boot state, what a step keeps, and which instructions read or write which part of
the state. -/

namespace Sys2Proof.Machine

open Sys2Proof.Claims

/-! ### Ended runs -/

/-- Only a running core steps (10_state R28): an ended run stops with `runEnded`. -/
theorem step_of_not_running {s : State} (h : s.status ≠ .running) : step s = .fault .runEnded := by
  unfold step engineStep
  split
  · contradiction
  · rfl
  · rfl

/-- No other state is reached from a state that takes no step. -/
theorem Reaches.eq_of_not_running {s t : State} (h : s.status ≠ .running) (hr : Reaches s t) : t = s := by
  cases hr with
  | refl => rfl
  | step hs _ => exact absurd (step_next_running hs) h

/-! ### The start of a run -/

/-- Construction and load leave the invariant true: an image that fits is canonical inside the instruction segment, and
one that does not is refused with the exit status of its fault (70 R252). -/
theorem State.boot_inv (p : Params) (image input : List Byte) : (State.boot p image input).Inv := by
  unfold State.boot State.load
  split
  · exact ⟨rfl, rfl, fun _ => rfl, rfl⟩
  · exact ⟨Memory.wfFrom_ofImage (by omega), rfl, fun _ => rfl, trivial⟩

theorem State.reset_eq_boot : State.reset = State.boot Params.defaults [] [] := rfl

/-! ### What every instruction keeps -/

theorem Effect.keeps_imem_params {s t : State} (h : Effect s t) : t.imem = s.imem ∧ t.params = s.params := by
  obtain ⟨u, n, hu, rfl⟩ | ⟨k, rfl⟩ := h
  · obtain ⟨-, hp, hi⟩ := hu.kept
    exact ⟨hi, hp⟩
  · exact ⟨rfl, rfl⟩

/-! ### No instruction outside the eight reads HI, LO or instruction memory (10_state R23, 20_memory R57)

Such an instruction runs alike from two states that differ in those fields alone, since its register operands, its
memory access and the pc pair are the same in both. -/

/-- The state with other HI, LO and instruction memory. -/
def State.withHiLoImem (s : State) (h l : Word) (m : Memory) : State := { s with hi := h, lo := l, imem := m }

theorem State.withHiLoImem_writeReg (s : State) (h l : Word) (m : Memory) (d : RegIdx) (v : Word) :
    (s.withHiLoImem h l m).writeReg d v = (s.writeReg d v).withHiLoImem h l m := by
  have hd : (s.withHiLoImem h l m).isHardwired d = s.isHardwired d := rfl
  unfold State.writeReg
  rw [hd]
  split <;> rfl

/-- The answer `r` from `s` is a next state with HI and LO as they were, and `r'` is that state with the other HI, LO
and instruction memory. -/
def RunsAlike (s : State) (h l : Word) (m : Memory) (r r' : StepResult) : Prop :=
  ∃ t, r = .next t ∧ SameHiLo s t ∧ r' = .next (t.withHiLoImem h l m)

section Alike
variable (s : State) (h l : Word) (m : Memory)

theorem RunsAlike.finishFault (k : FaultKind) :
    RunsAlike s h l m (s.finishFault k) ((s.withHiLoImem h l m).finishFault k) :=
  ⟨_, rfl, ⟨rfl, rfl⟩, rfl⟩

theorem RunsAlike.seq : RunsAlike s h l m (.next s.seq) (.next (s.withHiLoImem h l m).seq) :=
  ⟨_, rfl, ⟨rfl, rfl⟩, rfl⟩

theorem RunsAlike.redirect (t : Word) :
    RunsAlike s h l m (.next (s.redirect t)) (.next ((s.withHiLoImem h l m).redirect t)) :=
  ⟨_, rfl, ⟨rfl, rfl⟩, rfl⟩

variable {s h l m} in
theorem RunsAlike.ite {c : Prop} [Decidable c] {a a' b b' : StepResult} (ha : RunsAlike s h l m a a')
    (hb : RunsAlike s h l m b b') : RunsAlike s h l m (if c then a else b) (if c then a' else b') := by
  split
  · exact ha
  · exact hb

/-- What runs alike after a register write still does with the write in front. -/
theorem RunsAlike.writeReg (d : RegIdx) (v : Word) (f : State → StepResult)
    (hf : ∀ u, RunsAlike u h l m (f u) (f (u.withHiLoImem h l m))) :
    RunsAlike s h l m (f (s.writeReg d v)) (f ((s.withHiLoImem h l m).writeReg d v)) := by
  obtain ⟨t, hr, hk, hr'⟩ := hf (s.writeReg d v)
  rw [State.withHiLoImem_writeReg]
  exact ⟨t, hr, by simpa [SameHiLo] using hk, hr'⟩

theorem RunsAlike.finishReg (d : RegIdx) (v : Word) :
    RunsAlike s h l m (s.finishReg d v) ((s.withHiLoImem h l m).finishReg d v) :=
  .writeReg s h l m d v (fun u => .next u.seq) fun u => .seq u h l m

theorem RunsAlike.linkRedirect (d : RegIdx) (v t : Word) :
    RunsAlike s h l m (.next ((s.writeReg d v).redirect t))
      (.next (((s.withHiLoImem h l m).writeReg d v).redirect t)) :=
  .writeReg s h l m d v (fun u => .next (u.redirect t)) fun u => .redirect u h l m t

theorem RunsAlike.branchIf (c : Bool) (off : BitVec 16) :
    RunsAlike s h l m (branchIf c off s) (branchIf c off (s.withHiLoImem h l m)) :=
  .ite (.redirect ..) (.seq ..)

theorem memRead_withHiLoImem (a : Word) (n : AccessWidth) :
    memRead (s.withHiLoImem h l m) a n = (memRead s a n).map fun p => (p.1, p.2.withHiLoImem h l m) := by
  unfold memRead
  split
  · rfl
  · cases region a with
    | getc => dsimp only; split <;> rfl
    | dmem | imem | putc | unmapped => rfl

theorem memWrite_withHiLoImem (a : Word) (n : AccessWidth) (v : Word) :
    memWrite (s.withHiLoImem h l m) a n v = (memWrite s a n v).map fun t => t.withHiLoImem h l m := by
  unfold memWrite
  split
  · rfl
  · cases region a with
    | putc => dsimp only; split <;> rfl
    | dmem | imem | getc | unmapped => rfl

theorem RunsAlike.loadVia (n : AccessWidth) (ext : Word → Word) (rt rs : RegIdx) (off : BitVec 16) :
    RunsAlike s h l m (loadVia n ext rt rs off s) (loadVia n ext rt rs off (s.withHiLoImem h l m)) := by
  have hea : effAddr (s.withHiLoImem h l m) rs off = effAddr s rs off := rfl
  unfold Machine.loadVia
  rw [hea, memRead_withHiLoImem]
  rcases memRead_cases s (effAddr s rs off) n with ⟨-, -, hm⟩ | ⟨-, -, hm⟩ | hm <;> rw [hm]
  · exact .finishReg ..
  · exact .finishReg s.getcConsume ..
  · exact .finishFault ..

theorem RunsAlike.storeVia (n : AccessWidth) (rt rs : RegIdx) (off : BitVec 16) :
    RunsAlike s h l m (storeVia n rt rs off s) (storeVia n rt rs off (s.withHiLoImem h l m)) := by
  have hea : effAddr (s.withHiLoImem h l m) rs off = effAddr s rs off := rfl
  have hrt : (s.withHiLoImem h l m).readReg rt = s.readReg rt := rfl
  unfold Machine.storeVia
  rw [hea, hrt, memWrite_withHiLoImem]
  rcases memWrite_cases s (effAddr s rs off) n (s.readReg rt) with ⟨-, -, hm⟩ | ⟨-, -, hm⟩ | hm <;> rw [hm]
  · exact ⟨_, rfl, ⟨rfl, rfl⟩, rfl⟩
  · exact ⟨_, rfl, ⟨rfl, rfl⟩, rfl⟩
  · exact .finishFault ..

end Alike

theorem exec_runsAlike (i : Instr) (s : State) (h l : Word) (m : Memory) (hi : usesHiLo i = false) :
    RunsAlike s h l m (exec i s) (exec i (s.withHiLoImem h l m)) := by
  cases i with
  | mult | multu | div | divu | mfhi | mflo | mthi | mtlo => cases hi
  | add | addi | sub => exact .ite (.finishFault ..) (.finishReg ..)
  | addu | subu | addiu | slt | sltu | slti | sltiu | lui | and | or | xor | andi | ori | xori =>
    exact .finishReg ..
  | sll | srl | sra | sllv | srlv | srav => exact .finishReg ..
  | beq | bne | blez | bgtz | bltz | bgez => exact .branchIf ..
  | bltzal | bgezal => exact .writeReg s h l m _ _ (branchIf _ _) fun u => .branchIf u ..
  | j | jr => exact .redirect ..
  | jal | jalr => exact .linkRedirect ..
  | lb | lbu | lh | lhu | lw => exact .loadVia ..
  | lwl | lwr => exact .ite (.finishReg ..) (.finishFault ..)
  | sb | sh | sw => exact .storeVia ..

/-! ### Data memory and the streams change by loads and stores alone (10_state R29, R30) -/

/-- Data memory and both streams are as before. -/
def KeepsData (s t : State) : Prop := t.dmem = s.dmem ∧ SameStreams s t

/-- The answer is a next state, with data memory and both streams as before. -/
def AnswersKeepingData (s : State) (r : StepResult) : Prop := ∃ t, r = .next t ∧ KeepsData s t

section Keeping
variable (s : State)

theorem AnswersKeepingData.writeReg (d : RegIdx) (v : Word) (f : State → StepResult)
    (hf : ∀ u, AnswersKeepingData u (f u)) : AnswersKeepingData s (f (s.writeReg d v)) := by
  obtain ⟨t, hr, hk⟩ := hf (s.writeReg d v)
  exact ⟨t, hr, by simpa [KeepsData, SameStreams] using hk⟩

theorem AnswersKeepingData.seq : AnswersKeepingData s (.next s.seq) := ⟨_, rfl, rfl, rfl, rfl⟩

theorem AnswersKeepingData.hiLo (h l : Word) : AnswersKeepingData s (.next (s.writeHiLo h l).seq) :=
  ⟨_, rfl, rfl, rfl, rfl⟩

theorem AnswersKeepingData.redirect (t : Word) : AnswersKeepingData s (.next (s.redirect t)) :=
  ⟨_, rfl, rfl, rfl, rfl⟩

theorem AnswersKeepingData.finishFault (k : FaultKind) : AnswersKeepingData s (s.finishFault k) :=
  ⟨_, rfl, rfl, rfl, rfl⟩

theorem AnswersKeepingData.finishReg (d : RegIdx) (v : Word) : AnswersKeepingData s (s.finishReg d v) :=
  .writeReg s d v (fun u => .next u.seq) .seq

theorem AnswersKeepingData.linkRedirect (d : RegIdx) (v t : Word) :
    AnswersKeepingData s (.next ((s.writeReg d v).redirect t)) :=
  .writeReg s d v (fun u => .next (u.redirect t)) fun u => .redirect u t

variable {s} in
theorem AnswersKeepingData.ite {c : Prop} [Decidable c] {a b : StepResult} (ha : AnswersKeepingData s a)
    (hb : AnswersKeepingData s b) : AnswersKeepingData s (if c then a else b) := by
  split
  · exact ha
  · exact hb

theorem AnswersKeepingData.branchIf (c : Bool) (off : BitVec 16) : AnswersKeepingData s (branchIf c off s) :=
  .ite (.redirect ..) (.seq ..)

end Keeping

/-- The instructions whose access is a `memRead` or a `memWrite`. LWL and LWR read data memory without them
(20_memory R51), so they reach no port and store nothing. -/
def usesAccessPrimitive : Instr → Bool
  | .lb _ _ _ | .lbu _ _ _ | .lh _ _ _ | .lhu _ _ _ | .lw _ _ _ | .sb _ _ _ | .sh _ _ _ | .sw _ _ _ => true
  | _ => false

theorem exec_answersKeepingData (i : Instr) (s : State) (hi : usesAccessPrimitive i = false) :
    AnswersKeepingData s (exec i s) := by
  cases i with
  | lb | lbu | lh | lhu | lw | sb | sh | sw => cases hi
  | add | addi | sub => exact .ite (.finishFault ..) (.finishReg ..)
  | addu | subu | addiu | slt | sltu | slti | sltiu | lui | and | or | xor | andi | ori | xori =>
    exact .finishReg ..
  | mfhi | mflo | sll | srl | sra | sllv | srlv | srav => exact .finishReg ..
  | mult | multu => exact .hiLo ..
  | mthi rs => exact .hiLo s (s.readReg rs) s.lo
  | mtlo rs => exact .hiLo s s.hi (s.readReg rs)
  | div => exact .ite (.seq ..) (.ite (.hiLo ..) (.hiLo ..))
  | divu => exact .ite (.seq ..) (.hiLo ..)
  | beq | bne | blez | bgtz | bltz | bgez => exact .branchIf ..
  | bltzal | bgezal => exact .writeReg s _ _ (branchIf _ _) fun u => .branchIf u ..
  | j | jr => exact .redirect ..
  | jal | jalr => exact .linkRedirect ..
  | lwl | lwr => exact .ite (.finishReg ..) (.finishFault ..)

/-- The frame of every instruction without an access primitive. -/
theorem exec_keepsData {i : Instr} {s t : State} (hi : usesAccessPrimitive i = false) (h : exec i s = .next t) :
    KeepsData s t := by
  obtain ⟨u, hu, hk⟩ := exec_answersKeepingData i s hi
  cases hu.symm.trans h
  exact hk

/-- What a load does to data memory and the streams: it consumes one character at the input port (20_memory R49). -/
theorem loadVia_data {n : AccessWidth} {ext : Word → Word} {rt rs : RegIdx} {off : BitVec 16} {s t : State}
    (h : loadVia n ext rt rs off s = .next t) :
    t.dmem = s.dmem ∧ t.output = s.output ∧
      t.input = if effAddr s rs off = Config.getcAddr ∧ n ≠ .half then s.input.tail else s.input := by
  unfold loadVia at h
  by_cases hg : effAddr s rs off = Config.getcAddr ∧ n ≠ .half
  · rw [hg.1, memRead_getc s hg.2] at h
    cases h
    simp [hg]
  · rw [if_neg hg]
    rcases memRead_cases s (effAddr s rs off) n with ⟨-, -, hm⟩ | ⟨ha, hn, -⟩ | hm
    · rw [hm] at h
      cases h
      simp
    · exact absurd ⟨ha, hn⟩ hg
    · rw [hm] at h
      cases h
      simp

/-- A write of the output port (20_memory R46, R50). -/
theorem memWrite_putc (s : State) {n : AccessWidth} (v : Word) (hn : n ≠ .half) :
    memWrite s Config.putcAddr n v = some (s.putcEmit (v.extractLsb 7 0)) := by
  cases n
  · rfl
  · exact absurd rfl hn
  · rfl

/-- The low byte of a word, as a number modulo 256. -/
theorem low_byte_eq_ofNat (v : Word) : (v.extractLsb 7 0 : Byte) = BitVec.ofNat 8 v.toNat := rfl

/-- What a store does to the streams: it emits the register's low byte at the output port (20_memory R50). -/
theorem storeVia_streams {n : AccessWidth} {rt rs : RegIdx} {off : BitVec 16} {s t : State}
    (h : storeVia n rt rs off s = .next t) :
    t.input = s.input ∧
      t.output = if effAddr s rs off = Config.putcAddr ∧ n ≠ .half then s.output ++ [(s.readReg rt).extractLsb 7 0]
        else s.output := by
  unfold storeVia at h
  by_cases hp : effAddr s rs off = Config.putcAddr ∧ n ≠ .half
  · rw [hp.1, memWrite_putc s _ hp.2] at h
    cases h
    simp [hp]
  · rw [if_neg hp]
    rcases memWrite_cases s (effAddr s rs off) n (s.readReg rt) with ⟨-, -, hm⟩ | ⟨ha, hn, -⟩ | hm
    · rw [hm] at h
      cases h
      exact ⟨rfl, rfl⟩
    · exact absurd ⟨ha, hn⟩ hp
    · rw [hm] at h
      cases h
      exact ⟨rfl, rfl⟩

/-- A store leaves every byte of data memory outside its own bytes alone (20_memory R46). -/
theorem storeVia_read_outside {n : AccessWidth} {rt rs : RegIdx} {off : BitVec 16} {s t : State} {c : Nat}
    (hw : Memory.wf s.dmem = true) (h : storeVia n rt rs off s = .next t)
    (hc : c < (effAddr s rs off).toNat ∨ (effAddr s rs off).toNat + n.bytes ≤ c) :
    Memory.read t.dmem c = Memory.read s.dmem c := by
  unfold storeVia at h
  rcases memWrite_cases s (effAddr s rs off) n (s.readReg rt) with ⟨ha, hr, hm⟩ | ⟨-, -, hm⟩ | hm <;>
    rw [hm] at h <;> cases h
  · obtain ⟨-, hend⟩ := dmem_access_inside ha hr
    have hseg : Config.dmemBase + Config.dmemSize ≤ 2 ^ 32 := by decide
    exact Memory.read_writeBE_outside hw (Nat.zero_le _) (hend.trans hseg) hc
  · rfl
  · rfl

end Sys2Proof.Machine

namespace Sys2Proof.Proofs

open Sys2Proof.Machine Sys2Proof.Claims

/-- Settles O11: only a running core steps, so an ended run reaches itself alone. -/
theorem endedRunIsFinal : Obligations.EndedRunIsFinal := fun _ hs =>
  ⟨step_of_not_running hs, fun _ => Reaches.eq_of_not_running hs⟩

/-- Settles O20: the boot of an empty image computes to the reset state. -/
theorem resetIsTheEmptyBoot : Obligations.ResetIsTheEmptyBoot :=
  ⟨State.reset_eq_boot, rfl, rfl, rfl, rfl, rfl, rfl, rfl, rfl, rfl, rfl, by decide⟩

/-- Settles O22, by the two ends of the load: the image fits or is refused. -/
theorem bootMeetsTheInvariant : Obligations.BootMeetsTheInvariant := State.boot_inv

/-- Settles O21, as the boot of the empty image. -/
theorem resetMeetsTheInvariant : Obligations.ResetMeetsTheInvariant := by
  unfold Obligations.ResetMeetsTheInvariant
  rw [State.reset_eq_boot]
  exact State.boot_inv ..

/-- Settles O29, over the effects a step can have. -/
theorem stepKeepsInstructionMemoryAndParameters : Obligations.StepKeepsInstructionMemoryAndParameters := by
  intro s t h
  obtain ⟨-, ⟨rfl, -⟩ | he⟩ := step_effect h
  · exact ⟨rfl, rfl⟩
  · exact he.keeps_imem_params

/-- Settles O27: every other instruction runs alike from the two states. -/
theorem onlyEightInstructionsUseHiLo : Obligations.OnlyEightInstructionsUseHiLo := by
  intro i s t h l hi hst
  obtain ⟨u, hu, hk, halike⟩ := exec_runsAlike i s h l s.imem hi
  obtain ⟨v, hv, he⟩ := exec_effect i s
  cases hu.symm.trans hst
  cases hv.symm.trans hst
  refine ⟨hk, halike.trans ?_⟩
  rw [State.withHiLoImem, ← he.keeps_imem_params.1]

/-- Settles O30: the loads and stores by what their access does at its port, every other instruction by its frame. -/
theorem streamsChangeOnlyThroughThePorts : Obligations.StreamsChangeOnlyThroughThePorts := by
  intro i s t h
  cases i with
  | lb | lbu | lh | lhu | lw =>
    obtain ⟨-, hout, hin⟩ := loadVia_data h
    simp [hin, hout, inputAfter, outputAfter, Config.getcAddr]
  | sb | sh | sw =>
    obtain ⟨hin, hout⟩ := storeVia_streams h
    simp [hin, hout, inputAfter, outputAfter, Config.putcAddr, low_byte_eq_ofNat]
  | _ => exact (exec_keepsData rfl h).2

/-- Settles O31: a store by its frame in data memory; no other instruction changes it. -/
theorem dataMemoryChangesOnlyWhereStored : Obligations.DataMemoryChangesOnlyWhereStored := by
  intro i s t hw h c hc
  cases i with
  | sb | sh | sw =>
    have hout := hc _ _ rfl
    exact storeVia_read_outside hw h (by simp only [AccessWidth.bytes]; omega)
  | lb | lbu | lh | lhu | lw => rw [(loadVia_data h).1]
  | _ => rw [(exec_keepsData rfl h).1]

end Sys2Proof.Proofs
end

section
/-! PROOFS. The family 20_memory: the invariant over a step, no instruction touches instruction memory, which accesses
succeed, and a store read back as the big-endian number of its bytes. -/

namespace Sys2Proof.Machine

open Sys2Proof.Claims

/-! ### Every step keeps the invariant -/

/-- A core that still runs has no end for its status to agree with. -/
theorem State.statusOk_of_running {s : State} (hr : s.status = .running) : s.statusOk := by
  simp [State.statusOk, hr]

/-- A register write discards what would change a hard-wired register 0 (10_state R21). -/
theorem State.Inv.writeReg {s : State} (hs : s.Inv) (hr : s.status = .running) (d : RegIdx) (v : Word) :
    (s.writeReg d v).Inv := by
  refine ⟨by simpa using hs.imem_wf, by simpa using hs.dmem_wf, fun hw => ?_,
    State.statusOk_of_running (by simpa using hr)⟩
  rw [State.writeReg_params] at hw
  rw [State.writeReg_regs_zero hw, hs.reg_zero hw]

/-- A change of data keeps the invariant: a store stays inside the data segment, and the rest leaves both memories
alone. -/
theorem DataEffect.keeps_inv {s u : State} (h : DataEffect s u) (hs : s.Inv) (hr : s.status = .running) : u.Inv := by
  have hok : u.statusOk := State.statusOk_of_running (h.kept.1.trans hr)
  cases h with
  | nothing => exact hs
  | reg d v => exact hs.writeReg hr d v
  | input d v =>
    have hconsumed : s.getcConsume.Inv := ⟨hs.imem_wf, hs.dmem_wf, hs.reg_zero, hs.status_ok⟩
    exact hconsumed.writeReg hr d v
  | hiLo | output => exact ⟨hs.imem_wf, hs.dmem_wf, hs.reg_zero, hok⟩
  | store a n v ha hra =>
    obtain ⟨hlo, hhi⟩ := dmem_access_inside ha hra
    exact ⟨hs.imem_wf, Memory.wfFrom_writeBE hs.dmem_wf hlo hhi, hs.reg_zero, hok⟩

/-- The pc pair is no part of the invariant of a running core. -/
theorem State.Inv.setPcPair {s : State} (hs : s.Inv) (hr : s.status = .running) (p n : Word) :
    ({ s with pc := p, npc := n } : State).Inv :=
  ⟨hs.imem_wf, hs.dmem_wf, hs.reg_zero, State.statusOk_of_running hr⟩

/-- Taking a fault records the exit status of its kind (40_engine R102). -/
theorem State.Inv.raise {s : State} (hs : s.Inv) (k : FaultKind) : (s.raise k).Inv :=
  ⟨hs.imem_wf, hs.dmem_wf, hs.reg_zero, rfl⟩

/-- A halt at the null address or at the zero word records the low byte of register 2 (40_engine R91, R93, R94). -/
theorem State.Inv.halt {s : State} (hs : s.Inv) (hp : s.pc = 0 ∨ fetch s s.pc = some 0) : s.halt.Inv :=
  ⟨hs.imem_wf, hs.dmem_wf, hs.reg_zero, rfl, hp⟩

theorem Effect.keeps_inv {s t : State} (h : Effect s t) (hs : s.Inv) (hr : s.status = .running) : t.Inv := by
  obtain ⟨u, n, hu, rfl⟩ | ⟨k, rfl⟩ := h
  · exact (hu.keeps_inv hs hr).setPcPair (hu.kept.1.trans hr) s.npc n
  · exact hs.raise k

/-! ### No instruction reads or writes instruction memory (20_memory R57) -/

/-- The answer `r` is a next state, and `r'` is that state with the other instruction memory. -/
def RunsAlikeOnImem (m : Memory) (r r' : StepResult) : Prop :=
  ∃ t, r = .next t ∧ r' = .next { t with imem := m }

/-- To run alike from a state with the same HI and LO is to run alike on instruction memory. -/
theorem RunsAlike.onImem {s : State} {m : Memory} {r r' : StepResult} (h : RunsAlike s s.hi s.lo m r r') :
    RunsAlikeOnImem m r r' := by
  obtain ⟨t, hr, ⟨hhi, hlo⟩, hr'⟩ := h
  refine ⟨t, hr, hr'.trans ?_⟩
  rw [State.withHiLoImem, ← hhi, ← hlo]

theorem RunsAlikeOnImem.hiLo (s : State) (m : Memory) (h l : Word) :
    RunsAlikeOnImem m (.next (s.writeHiLo h l).seq) (.next (State.writeHiLo { s with imem := m } h l).seq) :=
  ⟨_, rfl, rfl⟩

theorem RunsAlikeOnImem.seq (s : State) (m : Memory) :
    RunsAlikeOnImem m (.next s.seq) (.next (State.seq { s with imem := m })) :=
  ⟨_, rfl, rfl⟩

theorem RunsAlikeOnImem.ite {m : Memory} {c : Prop} [Decidable c] {a a' b b' : StepResult}
    (ha : RunsAlikeOnImem m a a') (hb : RunsAlikeOnImem m b b') :
    RunsAlikeOnImem m (if c then a else b) (if c then a' else b') := by
  split
  · exact ha
  · exact hb

/-- Every instruction answers alike whatever instruction memory holds: the eight of HI and LO arm by arm, every
other one because it runs alike even where HI and LO differ too (`exec_runsAlike`). -/
theorem exec_runsAlikeOnImem (i : Instr) (s : State) (m : Memory) :
    RunsAlikeOnImem m (exec i s) (exec i { s with imem := m }) := by
  cases i with
  | mult | multu => exact .hiLo ..
  | mthi rs => exact .hiLo s m (s.readReg rs) s.lo
  | mtlo rs => exact .hiLo s m s.hi (s.readReg rs)
  | mfhi | mflo => exact (RunsAlike.finishReg s s.hi s.lo m _ _).onImem
  | div => exact .ite (.seq ..) (.ite (.hiLo ..) (.hiLo ..))
  | divu => exact .ite (.seq ..) (.hiLo ..)
  | _ => exact (exec_runsAlike _ s s.hi s.lo m rfl).onImem

/-! ### Which accesses succeed (20_memory R43, R44) -/

theorem memWrite_dmem {s : State} {a : Word} {n : AccessWidth} (v : Word) (ha : aligned a n = true)
    (hr : region a = .dmem) : memWrite s a n v = some { s with dmem := Memory.writeBE s.dmem a.toNat v n } := by
  simp [memWrite, ha, hr]

theorem memRead_isSome_iff {s : State} {a : Word} {n : AccessWidth} :
    (memRead s a n).isSome = true ↔
      (aligned a n = true ∧ region a = .dmem) ∨ (a = Config.getcAddr ∧ n ≠ .half) := by
  constructor
  · intro h
    obtain ⟨ha, hr, -⟩ | ⟨ha, hn, -⟩ | hnone := memRead_cases s a n
    · exact .inl ⟨ha, hr⟩
    · exact .inr ⟨ha, hn⟩
    · simp [hnone] at h
  · rintro (⟨ha, hr⟩ | ⟨rfl, hn⟩)
    · simp [memRead_dmem ha hr]
    · simp [memRead_getc s hn]

theorem memWrite_isSome_iff {s : State} {a : Word} {n : AccessWidth} {v : Word} :
    (memWrite s a n v).isSome = true ↔
      (aligned a n = true ∧ region a = .dmem) ∨ (a = Config.putcAddr ∧ n ≠ .half) := by
  constructor
  · intro h
    obtain ⟨ha, hr, -⟩ | ⟨ha, hn, -⟩ | hnone := memWrite_cases s a n v
    · exact .inl ⟨ha, hr⟩
    · exact .inr ⟨ha, hn⟩
    · simp [hnone] at h
  · rintro (⟨ha, hr⟩ | ⟨rfl, hn⟩)
    · simp [memWrite_dmem v ha hr]
    · simp [memWrite_putc s v hn]

theorem fetch_isSome_iff {s : State} {a : Word} :
    (fetch s a).isSome = true ↔ aligned a .word = true ∧ region a = .imem := by
  rw [Option.isSome_iff_ne_none, ne_eq, fetch_eq_none, not_not]

/-! ### An access as the big-endian number of its bytes (20_memory R42, R45, R46) -/

/-- An access reads the big-endian number in its bytes. -/
theorem Memory.readBE_eq_bigEndian (m : Memory) (a : Nat) (n : AccessWidth) :
    Memory.readBE m a n = BitVec.ofNat 32 (bigEndian m a n.bytes) := by
  cases n with
  | byte => simp [Memory.readBE, AccessWidth.bytes, bigEndian]
  | half =>
    rw [Memory.readBE, ← BitVec.ofNat_toNat, halfOfBytes_toNat]
    simp [AccessWidth.bytes, bigEndian, Nat.mul_comm]
  | word =>
    rw [Memory.readBE, ← BitVec.setWidth_eq (wordOfBytes ..), ← BitVec.ofNat_toNat, wordOfBytes_toNat]
    simp [AccessWidth.bytes, bigEndian, Nat.mul_comm]

/-- A read of the data segment, as a number. -/
theorem memRead_data {s : State} {a : Word} {n : AccessWidth} (ha : a.toNat % n.bytes = 0) (hd : InData a) :
    memRead s a n = some (BitVec.ofNat 32 (bigEndian s.dmem a.toNat n.bytes), s) := by
  rw [memRead_dmem (aligned_iff.mpr ha) (region_dmem_iff.mpr hd), Memory.readBE_eq_bigEndian]

/-- Byte `j` of a word, counted from its low end. -/
theorem extract_byte_eq_ofNat (v : Word) (j : Nat) :
    v.extractLsb' (8 * j) 8 = BitVec.ofNat 8 (v.toNat / 256 ^ j) := by
  rw [BitVec.extractLsb', Nat.shiftRight_eq_div_pow, pow_mul, show 2 ^ 8 = 256 from rfl]

section Store
variable {lo hi a : Nat} {v : Word} {n : AccessWidth} {m : Memory}

/-- Byte `k` of what a store writes, the most significant byte first. -/
theorem Memory.read_writeBE_inside {k : Nat} (h : Memory.wfFrom lo hi m = true) (hl : lo ≤ a)
    (hh : a + n.bytes ≤ hi) (hk : k < n.bytes) :
    Memory.read (Memory.writeBE m a v n) (a + k) = BitVec.ofNat 8 (v.toNat / 256 ^ (n.bytes - 1 - k)) := by
  rw [← extract_byte_eq_ofNat]
  cases n <;> simp only [AccessWidth.bytes] at hh hk ⊢
  case byte =>
    obtain rfl : k = 0 := by omega
    exact Memory.read_writeBE_byte h
  case half =>
    obtain ⟨h0, h1⟩ := Memory.read_writeBE_half (v := v) h hl hh
    obtain rfl | rfl : k = 0 ∨ k = 1 := by omega
    · exact h0
    · exact h1
  case word =>
    obtain ⟨h0, h1, h2, h3⟩ := Memory.read_writeBE_word (v := v) h hl hh
    obtain rfl | rfl | rfl | rfl : k = 0 ∨ k = 1 ∨ k = 2 ∨ k = 3 := by omega
    · exact h0
    · exact h1
    · exact h2
    · exact h3

/-- After a store, `j` bytes read at offset `k` inside it give those bytes of the value stored: the low bytes after them
are cut off by the division, the high bytes before them by the remainder. -/
theorem bigEndian_writeBE_inside {k j : Nat} (h : Memory.wfFrom lo hi m = true) (hl : lo ≤ a)
    (hh : a + n.bytes ≤ hi) (hkj : k + j ≤ n.bytes) :
    bigEndian (Memory.writeBE m a v n) (a + k) j = v.toNat / 256 ^ (n.bytes - (k + j)) % 256 ^ j := by
  induction j with
  | zero => rw [bigEndian, pow_zero, Nat.mod_one]
  | succ j ih =>
    have hbyte := Memory.read_writeBE_inside (v := v) h hl hh (show k + j < n.bytes by omega)
    have hlast : n.bytes - 1 - (k + j) = n.bytes - (k + (j + 1)) := by omega
    have hrest : n.bytes - (k + j) = n.bytes - (k + (j + 1)) + 1 := by omega
    rw [bigEndian, ih (by omega), Nat.add_assoc, hbyte, hlast, hrest, pow_succ, ← Nat.div_div_eq_div_mul]
    generalize v.toNat / 256 ^ (n.bytes - (k + (j + 1))) = w
    rw [BitVec.toNat_ofNat, pow_succ' 256 j, Nat.mod_mul, Nat.add_comm]

end Store

theorem AccessWidth.bytes_pos (n : AccessWidth) : 0 < n.bytes := by
  cases n <;> decide

/-- A store to data memory succeeds, and an aligned read of any width inside it, at offset `k`, then gives those bytes
of the value stored (20_memory R42, R47). -/
theorem memWrite_data_memRead {s : State} {a : Word} {n : AccessWidth} (v : Word) (hm : Memory.wf s.dmem = true)
    (ha : a.toNat % n.bytes = 0) (hd : InData a) :
    ∃ t, memWrite s a n v = some t ∧
      ∀ (b : Word) (w : AccessWidth) (k : Nat), b.toNat = a.toNat + k → k + w.bytes ≤ n.bytes →
        b.toNat % w.bytes = 0 →
        memRead t b w =
          some (BitVec.ofNat 32 (v.toNat / 256 ^ (n.bytes - (k + w.bytes)) % 256 ^ w.bytes), t) := by
  have hal := aligned_iff.mpr ha
  have hr := region_dmem_iff.mpr hd
  have hend : a.toNat + n.bytes ≤ 0x24000000 := (dmem_access_inside hal hr).2
  refine ⟨_, memWrite_dmem v hal hr, fun b w k hb hk hbw => ?_⟩
  have hbd : InData b := by
    have hpos := w.bytes_pos
    constructor <;> omega
  rw [memRead_data hbw hbd, hb, bigEndian_writeBE_inside hm (Nat.zero_le _) (by omega) hk]

/-! ### The word placed is the word fetched (log entry 5) -/

/-- The step fetches a word exactly where `fetch` gives it. -/
theorem fetches_iff {s : State} {w : Word} :
    Fetches s w ↔ s.status = .running ∧ fetch s s.pc = some w := by
  rw [Fetches, fetch_eq_some, aligned_word_iff, region_imem_iff, Memory.readBE_eq_bigEndian]
  rfl

theorem tableWord_eq_ofNat (w : Nat) : tableWord 32 w = BitVec.ofNat 32 w :=
  BitVec.eq_of_toNat_eq (by simp [tableWord])

end Sys2Proof.Machine

namespace Sys2Proof.Proofs

open Sys2Proof.Machine Sys2Proof.Claims

/-- Settles O23, over the effects a step can have: a halt or a fault leaves a status that agrees with the state, and a
change of data keeps the memories and register 0. -/
theorem stepKeepsTheInvariant : Obligations.StepKeepsTheInvariant := by
  intro s t hs h
  obtain ⟨hr, ⟨rfl, hp⟩ | he⟩ := step_effect h
  · exact hs.halt hp
  · exact he.keeps_inv hs hr

/-- Settles O28: no effect changes instruction memory, and every instruction answers alike whatever it holds. -/
theorem instructionsNeverTouchInstructionMemory : Obligations.InstructionsNeverTouchInstructionMemory := by
  intro i s t m h
  obtain ⟨u, hu, he⟩ := exec_effect i s
  obtain ⟨v, hv, halike⟩ := exec_runsAlikeOnImem i s m
  cases hu.symm.trans h
  cases hv.symm.trans h
  exact ⟨he.keeps_imem_params.1, halike⟩

/-- Settles O32, by the exact condition under which each access primitive gives a value. -/
theorem accessPermissions : Obligations.AccessPermissions := by
  intro s a n v
  rw [memRead_isSome_iff, memWrite_isSome_iff, fetch_isSome_iff, aligned_iff, aligned_word_iff, region_dmem_iff,
    region_imem_iff]
  exact ⟨Iff.rfl, Iff.rfl, Iff.rfl⟩

/-- Settles O33: the read of all the bytes of the store. -/
theorem dataWriteThenReadReturnsTheValue : Obligations.DataWriteThenReadReturnsTheValue := by
  intro s a n v hm ha hd
  obtain ⟨t, ht, hread⟩ := memWrite_data_memRead v hm ha hd
  have hall := hread a n 0 rfl (Nat.zero_add _).le ha
  rw [Nat.zero_add, Nat.sub_self, pow_zero, Nat.div_one] at hall
  exact ⟨t, ht, hall⟩

/-- Settles O34: each byte and half is a read inside the word stored. -/
theorem wordIsReadByteByByteInBigEndianOrder : Obligations.WordIsReadByteByByteInBigEndianOrder := by
  intro s a v hm ha hd
  obtain ⟨t, ht, hread⟩ := memWrite_data_memRead (n := .word) v hm ha hd
  have hoff : ∀ k, k < 4 → (a + BitVec.ofNat 32 k).toNat = a.toNat + k := by
    intro k hk
    rw [BitVec.toNat_add, BitVec.toNat_ofNat]
    omega
  have htwo : (a + 2).toNat = a.toNat + 2 := hoff 2 (by decide)
  have hupper : v.toNat / 65536 % 65536 = v.toNat / 65536 := by
    have := v.isLt
    omega
  refine ⟨t, ht, fun k hk => ?_, ?_, ?_⟩
  · rw [show 3 - k = 4 - (k + 1) by omega]
    exact hread _ .byte k (hoff k hk) hk (Nat.mod_one _)
  · rw [← hupper]
    exact hread a .half 0 rfl (by decide) (show a.toNat % 2 = 0 by omega)
  · rw [← Nat.div_one v.toNat]
    exact hread (a + 2) .half 2 htwo (by decide) (show (a + 2).toNat % 2 = 0 by omega)

/-- Settles O25, by the fetch of the word placed. -/
theorem placedWordIsFetched : Obligations.PlacedWordIsFetched := by
  intro s w hrun ha hi hm
  have hal := aligned_word_iff.mpr ha
  have hr := region_imem_iff.mpr hi
  have hend : s.pc.toNat + 4 ≤ 2 ^ 32 := by omega
  have hfetch := State.fetch_placeWord (tableWord 32 w) hm (Nat.zero_le _) hend hal hr
  rw [fetches_iff, State.withFetchWord, State.placeWord_status, State.placeWord_pc, ← tableWord_eq_ofNat]
  exact ⟨hrun, hfetch⟩

end Sys2Proof.Proofs
end

section
/-! PROOFS. The family 30_encoding: a word decodes to an instruction exactly when it agrees with the encoded word on the
bits the decoder reads; the rest of the family, and the halt at the zero word, follow from that and the rows. -/

namespace Sys2Proof

/-! ### Agreement with an encoded word, field by field

One lemma for each mask of `Instr.usedMask`, named after the operand fields the mask keeps. -/

section Agreement
variable {w : Word} {op funct : BitVec 6} {rs rt rd sa : BitVec 5} {imm : BitVec 16} {index : BitVec 26}

/-- Agreement with an R-type word under a mask that keeps the opcode and the function code. -/
theorem agreesR_iff (rs' rt' rd' sa' : BitVec 5) :
    w &&& (BitVec.allOnes 6 ++ rs' ++ rt' ++ rd' ++ sa' ++ BitVec.allOnes 6 : BitVec 32) =
        encodeR rs rt rd sa funct ↔
      opcodeOf w = 0 ∧ functOf w = funct ∧
        rsOf w &&& rs' = rs ∧ rtOf w &&& rt' = rt ∧ rdOf w &&& rd' = rd ∧ shamtOf w &&& sa' = sa := by
  have h := fieldsR_and_eq_iff w 0 (BitVec.allOnes 6) rs rs' rt rt' rd rd' sa sa' funct (BitVec.allOnes 6)
  simp only [BitVec.and_allOnes] at h
  refine h.trans ?_
  tauto

/-- Agreement with an I-type word under a mask that keeps the opcode and the immediate. -/
theorem agreesI_iff (rs' rt' : BitVec 5) :
    w &&& encodeI (BitVec.allOnes 6) rs' rt' (BitVec.allOnes 16) = encodeI op rs rt imm ↔
      opcodeOf w = op ∧ rsOf w &&& rs' = rs ∧ rtOf w &&& rt' = rt ∧ immOf w = imm := by
  have h := fieldsI_and_eq_iff w op (BitVec.allOnes 6) rs rs' rt rt' imm (BitVec.allOnes 16)
  rwa [BitVec.and_allOnes, BitVec.and_allOnes] at h

theorem agrees_rsRtRd : w &&& 0xFFFFF83F = encodeR rs rt rd 0 funct ↔
    opcodeOf w = 0 ∧ functOf w = funct ∧ rsOf w = rs ∧ rtOf w = rt ∧ rdOf w = rd :=
  (agreesR_iff (BitVec.allOnes 5) (BitVec.allOnes 5) (BitVec.allOnes 5) 0#5).trans (by
    simp only [BitVec.and_allOnes, BitVec.and_zero, BitVec.ofNat_eq_ofNat, and_true])

theorem agrees_rtRdSa : w &&& 0xFC1FFFFF = encodeR 0 rt rd sa funct ↔
    opcodeOf w = 0 ∧ functOf w = funct ∧ rtOf w = rt ∧ rdOf w = rd ∧ shamtOf w = sa :=
  (agreesR_iff 0#5 (BitVec.allOnes 5) (BitVec.allOnes 5) (BitVec.allOnes 5)).trans (by
    simp only [BitVec.and_allOnes, BitVec.and_zero, BitVec.ofNat_eq_ofNat, true_and])

theorem agrees_rsRt : w &&& 0xFFFF003F = encodeR rs rt 0 0 funct ↔
    opcodeOf w = 0 ∧ functOf w = funct ∧ rsOf w = rs ∧ rtOf w = rt :=
  (agreesR_iff (BitVec.allOnes 5) (BitVec.allOnes 5) 0#5 0#5).trans (by
    simp only [BitVec.and_allOnes, BitVec.and_zero, BitVec.ofNat_eq_ofNat, and_true])

theorem agrees_rd : w &&& 0xFC00F83F = encodeR 0 0 rd 0 funct ↔
    opcodeOf w = 0 ∧ functOf w = funct ∧ rdOf w = rd :=
  (agreesR_iff 0#5 0#5 (BitVec.allOnes 5) 0#5).trans (by
    simp only [BitVec.and_allOnes, BitVec.and_zero, BitVec.ofNat_eq_ofNat, and_true, true_and])

theorem agrees_rs : w &&& 0xFFE0003F = encodeR rs 0 0 0 funct ↔
    opcodeOf w = 0 ∧ functOf w = funct ∧ rsOf w = rs :=
  (agreesR_iff (BitVec.allOnes 5) 0#5 0#5 0#5).trans (by
    simp only [BitVec.and_allOnes, BitVec.and_zero, BitVec.ofNat_eq_ofNat, and_true])

theorem agrees_rsRd : w &&& 0xFFE0F83F = encodeR rs 0 rd 0 funct ↔
    opcodeOf w = 0 ∧ functOf w = funct ∧ rsOf w = rs ∧ rdOf w = rd :=
  (agreesR_iff (BitVec.allOnes 5) 0#5 (BitVec.allOnes 5) 0#5).trans (by
    simp only [BitVec.and_allOnes, BitVec.and_zero, BitVec.ofNat_eq_ofNat, and_true, true_and])

theorem agrees_rsRtImm : w &&& 0xFFFFFFFF = encodeI op rs rt imm ↔
    opcodeOf w = op ∧ rsOf w = rs ∧ rtOf w = rt ∧ immOf w = imm :=
  (agreesI_iff (BitVec.allOnes 5) (BitVec.allOnes 5)).trans (by simp only [BitVec.and_allOnes])

theorem agrees_rtImm : w &&& 0xFC1FFFFF = encodeI op 0 rt imm ↔
    opcodeOf w = op ∧ rtOf w = rt ∧ immOf w = imm :=
  (agreesI_iff 0#5 (BitVec.allOnes 5)).trans (by
    simp only [BitVec.and_allOnes, BitVec.and_zero, BitVec.ofNat_eq_ofNat, true_and])

theorem agrees_rsImm : w &&& 0xFFE0FFFF = encodeI op rs 0 imm ↔
    opcodeOf w = op ∧ rsOf w = rs ∧ immOf w = imm :=
  (agreesI_iff (BitVec.allOnes 5) 0#5).trans (by
    simp only [BitVec.and_allOnes, BitVec.and_zero, BitVec.ofNat_eq_ofNat, true_and])

theorem agrees_index : w &&& 0xFFFFFFFF = encodeJ op index ↔ opcodeOf w = op ∧ indexOf w = index := by
  rw [show w &&& 0xFFFFFFFF = w from BitVec.and_allOnes]
  constructor
  · rintro rfl
    simp
  · rintro ⟨rfl, rfl⟩
    exact word_eq_fieldsJ w

end Agreement

/-! ### The decoder and agreement with an encoded word -/

section Decoder
variable {w : Word} {i : Instr}

theorem decodeNonzero_special (h : opcodeOf w = 0x00#6) : decodeNonzero w = decodeSpecial w := by
  simp only [decodeNonzero, h]

theorem decodeNonzero_branchSpecial (h : opcodeOf w = 0x01#6) : decodeNonzero w = decodeBranchSpecial w := by
  simp only [decodeNonzero, h]

/-- The decoder reads no bit outside the mask (30_encoding R77). -/
theorem decodeNonzero_of_agrees (h : w &&& i.usedMask = encode i) : decodeNonzero w = .ok i := by
  cases i with
  | add | addu | sub | subu | slt | sltu | and | or | xor | sllv | srlv | srav =>
    obtain ⟨hop, hfn, rfl, rfl, rfl⟩ := agrees_rsRtRd.1 h
    simp [decodeNonzero_special hop, decodeSpecial, hfn]
  | sll | srl | sra =>
    obtain ⟨hop, hfn, rfl, rfl, rfl⟩ := agrees_rtRdSa.1 h
    simp [decodeNonzero_special hop, decodeSpecial, hfn]
  | mult | multu | div | divu =>
    obtain ⟨hop, hfn, rfl, rfl⟩ := agrees_rsRt.1 h
    simp [decodeNonzero_special hop, decodeSpecial, hfn]
  | mfhi | mflo =>
    obtain ⟨hop, hfn, rfl⟩ := agrees_rd.1 h
    simp [decodeNonzero_special hop, decodeSpecial, hfn]
  | mthi | mtlo | jr =>
    obtain ⟨hop, hfn, rfl⟩ := agrees_rs.1 h
    simp [decodeNonzero_special hop, decodeSpecial, hfn]
  | jalr =>
    obtain ⟨hop, hfn, rfl, rfl⟩ := agrees_rsRd.1 h
    simp [decodeNonzero_special hop, decodeSpecial, hfn]
  | bltz | bgez | bltzal | bgezal =>
    obtain ⟨hop, rfl, hrt, rfl⟩ := agrees_rsRtImm.1 h
    simp [decodeNonzero_branchSpecial hop, decodeBranchSpecial, hrt]
  | addi | addiu | slti | sltiu | andi | ori | xori | beq | bne | lb | lbu | lh | lhu | lw | lwl | lwr | sb |
    sh | sw =>
    obtain ⟨hop, rfl, rfl, rfl⟩ := agrees_rsRtImm.1 h
    simp [decodeNonzero, hop]
  | lui =>
    obtain ⟨hop, rfl, rfl⟩ := agrees_rtImm.1 h
    simp [decodeNonzero, hop]
  | blez | bgtz =>
    obtain ⟨hop, rfl, rfl⟩ := agrees_rsImm.1 h
    simp [decodeNonzero, hop]
  | j | jal =>
    obtain ⟨hop, rfl⟩ := agrees_index.1 h
    simp [decodeNonzero, hop]

theorem agrees_of_decodeSpecial (hop : opcodeOf w = 0x00#6) (h : decodeSpecial w = .ok i) :
    w &&& i.usedMask = encode i := by
  unfold decodeSpecial at h
  split at h <;> cases h
  all_goals
    simp only [Instr.usedMask, encode, agrees_rsRtRd, agrees_rtRdSa, agrees_rsRt, agrees_rd, agrees_rs,
      agrees_rsRd]
    simp [*]

theorem agrees_of_decodeBranchSpecial (hop : opcodeOf w = 0x01#6) (h : decodeBranchSpecial w = .ok i) :
    w &&& i.usedMask = encode i := by
  unfold decodeBranchSpecial at h
  split at h <;> cases h
  all_goals exact agrees_rsRtImm.2 ⟨hop, rfl, ‹_›, rfl⟩

/-- The decoder reads every bit of the mask: it drops no selecting bit and no operand bit (30_encoding R76). -/
theorem agrees_of_decodeNonzero (h : decodeNonzero w = .ok i) : w &&& i.usedMask = encode i := by
  unfold decodeNonzero at h
  split at h
  case h_1 hop => exact agrees_of_decodeSpecial hop h
  case h_2 hop => exact agrees_of_decodeBranchSpecial hop h
  all_goals cases h
  all_goals
    simp only [Instr.usedMask, encode, agrees_index, agrees_rsRtImm, agrees_rtImm, agrees_rsImm]
    simp [*]

theorem decodeNonzero_eq_ok_iff : decodeNonzero w = .ok i ↔ w &&& i.usedMask = encode i :=
  ⟨agrees_of_decodeNonzero, decodeNonzero_of_agrees⟩

theorem decodeNonzero_encode (i : Instr) : decodeNonzero (encode i) = .ok i := by
  cases i with
  | add | addu | sub | subu | slt | sltu | and | or | xor | sllv | srlv | srav | sll | srl | sra | mult | multu | div |
    divu | mfhi | mflo | mthi | mtlo | jr | jalr =>
    simp [encode, decodeNonzero, decodeSpecial]
  | bltz | bgez | bltzal | bgezal =>
    simp [encode, encodeB_eq_encodeI, decodeNonzero, decodeBranchSpecial]
  | addi | addiu | slti | sltiu | andi | ori | xori | beq | bne | lb | lbu | lh | lhu | lw | lwl | lwr | sb | sh | sw |
    lui | blez | bgtz | j | jal =>
    simp [encode, decodeNonzero]

/-- Only `sll $0, $0, 0` is encoded as the zero word: that is the instruction the fields of the zero word give. -/
theorem encode_ne_zero (h : i.wellFormed = true) : encode i ≠ 0 := by
  intro h0
  have hi : decodeNonzero 0 = .ok i := h0 ▸ decodeNonzero_encode i
  have hz : decodeNonzero 0 = .ok (.sll 0 0 0) := by decide
  cases hz.symm.trans hi
  exact absurd h (by decide)

/-! ### The answers of the decoder -/

theorem decodeSpecial_cases (w : Word) :
    (∃ i, decodeSpecial w = .ok i) ∨ decodeSpecial w = .error .unknownEncoding := by
  unfold decodeSpecial
  split <;> simp

theorem decodeBranchSpecial_cases (w : Word) :
    (∃ i, decodeBranchSpecial w = .ok i) ∨ decodeBranchSpecial w = .error .unknownEncoding := by
  unfold decodeBranchSpecial
  split <;> simp

theorem decodeNonzero_cases (w : Word) :
    (∃ i, decodeNonzero w = .ok i) ∨ decodeNonzero w = .error .unknownEncoding := by
  unfold decodeNonzero
  split
  case h_1 => exact decodeSpecial_cases w
  case h_2 => exact decodeBranchSpecial_cases w
  all_goals simp

theorem decodeWord_of_ne_zero (h : w ≠ 0) : decodeWord w = decodeNonzero w := if_neg h

theorem decodeWord_eq_ok_iff : decodeWord w = .ok i ↔ w ≠ 0 ∧ w &&& i.usedMask = encode i := by
  by_cases h : w = 0
  · simp [decodeWord, h]
  · rw [decodeWord_of_ne_zero h, decodeNonzero_eq_ok_iff]
    exact (and_iff_right h).symm

/-- The three things a word can be (30_encoding R81). -/
theorem decodeWord_cases (w : Word) :
    (w = 0 ∧ decodeWord w = .error .zeroWord) ∨
    (w ≠ 0 ∧ ∃ i, decodeWord w = .ok i) ∨
    (w ≠ 0 ∧ decodeWord w = .error .unknownEncoding) := by
  by_cases h : w = 0
  · exact .inl ⟨h, if_pos h⟩
  · rw [decodeWord_of_ne_zero h]
    obtain hok | hunknown := decodeNonzero_cases w
    · exact .inr (.inl ⟨h, hok⟩)
    · exact .inr (.inr ⟨h, hunknown⟩)

end Decoder

/-! ### Words and their bytes -/

theorem wordOfBytes_extract (w : Word) :
    wordOfBytes (w.extractLsb 31 24) (w.extractLsb 23 16) (w.extractLsb 15 8) (w.extractLsb 7 0) = w := by
  unfold wordOfBytes; ext k hk; simp; grind

/-- The decoder reads a word from the front of its bytes in memory order (20_memory R42). -/
theorem decodeBytes_bytesOfWord {w : Word} {i : Instr} (h : decodeWord w = .ok i) (rest : List Byte) :
    decodeBytes (bytesOfWord w ++ rest) = .ok (i, rest) := by
  simp only [bytesOfWord, List.cons_append, List.nil_append, decodeBytes, wordOfBytes_extract, h]

/-! ### The rows of spec/opcode_table.json -/

section Rows
open Laws
variable {w : Word} {i : Instr}

theorem row_mem_opcodeTable (i : Instr) : i.row ∈ opcodeTable := by
  simp only [opcodeTable, tableInstrs, List.map_append, List.map_cons, List.map_nil, List.mem_append, List.mem_cons]
  cases i <;> simp only [Instr.row, true_or, or_true]

theorem hasWord_iff {r : OpcodeRow} : r.hasWord w = true ↔ w &&& r.mask = r.pattern := beq_iff_eq

/-- The encoder's word is one of its row's words. -/
theorem encode_and_mask (i : Instr) : encode i &&& i.row.mask = i.row.pattern := by
  cases i with
  | add | addu | sub | subu | slt | sltu | and | or | xor | sllv | srlv | srav | sll | srl | sra | mult | multu | div |
    divu | mfhi | mflo | mthi | mtlo | jr | jalr => exact encodeR_row _ _ _ _ _
  | bltz | bgez | bltzal | bgezal => exact encodeB_row _ _ _
  | addi | addiu | slti | sltiu | andi | ori | xori | beq | bne | lb | lbu | lh | lhu | lw | lwl | lwr | sb | sh | sw |
    lui | blez | bgtz => exact encodeI_row _ _ _ _
  | j | jal => exact encodeJ_row _ _

theorem row_hasWord_of_agrees (h : w &&& i.usedMask = encode i) : i.row.hasWord w = true := by
  rw [hasWord_iff, ← usedMask_and_mask i, ← BitVec.and_assoc, h, encode_and_mask]

/-- Words that agree under a mask agree on each field the mask keeps. -/
theorem extractLsb_eq_of_and_eq {w v m : Word} {hi lo : Nat} (hm : m.extractLsb hi lo = BitVec.allOnes _)
    (h : w &&& m = v &&& m) : w.extractLsb hi lo = v.extractLsb hi lo := by
  have h' := congrArg (BitVec.extractLsb hi lo) h
  rwa [BitVec.extractLsb_and, BitVec.extractLsb_and, hm, BitVec.and_allOnes, BitVec.and_allOnes] at h'

/-- A word of a row of the table has the selecting fields of the row's instruction, so the decoder's maps hold it. -/
theorem decodes_of_row_hasWord (h : i.row.hasWord w = true) : ∃ j, decodeNonzero w = .ok j := by
  rw [hasWord_iff, ← encode_and_mask] at h
  cases i with
  | add | addu | sub | subu | slt | sltu | and | or | xor | sllv | srlv | srav | sll | srl | sra | mult | multu | div |
    divu | mfhi | mflo | mthi | mtlo | jr | jalr =>
    have hop : opcodeOf w = _ :=
      (extractLsb_eq_of_and_eq (m := 0xFC00003F) (by decide) h).trans (opcodeOf_encodeR _ _ _ _ _)
    have hfn : functOf w = _ :=
      (extractLsb_eq_of_and_eq (m := 0xFC00003F) (by decide) h).trans (functOf_encodeR _ _ _ _ _)
    simp [decodeNonzero_special hop, decodeSpecial, hfn]
  | bltz | bgez | bltzal | bgezal =>
    have hop : opcodeOf w = _ :=
      (extractLsb_eq_of_and_eq (m := 0xFC1F0000) (by decide) h).trans (opcodeOf_encodeI _ _ _ _)
    have hrt : rtOf w = _ :=
      (extractLsb_eq_of_and_eq (m := 0xFC1F0000) (by decide) h).trans (rtOf_encodeI _ _ _ _)
    simp [decodeNonzero_branchSpecial hop, decodeBranchSpecial, hrt]
  | addi | addiu | slti | sltiu | andi | ori | xori | beq | bne | lb | lbu | lh | lhu | lw | lwl | lwr | sb | sh | sw |
    lui | blez | bgtz =>
    have hop : opcodeOf w = _ :=
      (extractLsb_eq_of_and_eq (m := 0xFC000000) (by decide) h).trans (opcodeOf_encodeI _ _ _ _)
    simp [decodeNonzero, hop]
  | j | jal =>
    have hop : opcodeOf w = _ :=
      (extractLsb_eq_of_and_eq (m := 0xFC000000) (by decide) h).trans (opcodeOf_encodeJ _ _)
    simp [decodeNonzero, hop]

end Rows
end Sys2Proof

namespace Sys2Proof.Machine

open Sys2Proof.Claims

/-! ### The step where a word is fetched -/

theorem cycle_of_fetch {s : State} {w : Word} (h : fetch s s.pc = some w) : cycle s = execWord w s := by
  have hpc : s.pc ≠ 0 := fun h0 => by simp [h0, fetch_eq_some, region_imem_iff] at h
  simp only [cycle, if_neg hpc, h]

/-- A running core runs the word it fetches (40_engine R90). -/
theorem step_of_fetches {s : State} {w : Word} (h : Fetches s w) : step s = execWord w s := by
  obtain ⟨hrun, hfetch⟩ := fetches_iff.1 h
  rw [step_running hrun, cycle_of_fetch hfetch]

end Sys2Proof.Machine

namespace Sys2Proof.Proofs

open Sys2Proof.Machine Sys2Proof.Claims

/-- Settles O3: on a word that is not zero the decoder's maps and agreement with the encoded word are the same. -/
theorem decodeReadsExactlyTheUsedBits : Obligations.DecodeReadsExactlyTheUsedBits :=
  fun _ _ => decodeWord_eq_ok_iff

/-- Settles O2, from the decoder's maps on the encoded word, which is not the zero word, and its four bytes. -/
theorem decodeOfEncodeIsTheInstruction : Obligations.DecodeOfEncodeIsTheInstruction := by
  intro i hi
  have hword : decodeWord (encode i) = .ok i :=
    (decodeWord_of_ne_zero (encode_ne_zero hi)).trans (decodeNonzero_encode i)
  exact ⟨hword, decodeBytes_bytesOfWord hword⟩

/-- Settles O4, over the three things a word can be: a word of an instruction is a word of its row, and a word of a row
is a word of an instruction. -/
theorem everyWordIsZeroInstructionOrUnknown : Obligations.EveryWordIsZeroInstructionOrUnknown := by
  intro w
  have hrow : ∀ i, decodeWord w = .ok i → i.row ∈ opcodeTable ∧ i.row.hasWord w = true := fun i hi =>
    ⟨row_mem_opcodeTable i, row_hasWord_of_agrees (decodeWord_eq_ok_iff.1 hi).2⟩
  obtain ⟨h0, hd⟩ | ⟨hne, i, hd⟩ | ⟨hne, hd⟩ := decodeWord_cases w
  · exact ⟨iff_of_true hd h0, iff_of_false (by simp [hd]) fun h => h.1 h0, hrow, by simp [hd]⟩
  · obtain ⟨hmem, hhas⟩ := hrow i hd
    have hsome : ¬ ∀ row ∈ opcodeTable, row.hasWord w = false := fun hno =>
      Bool.false_ne_true ((hno _ hmem).symm.trans hhas)
    exact ⟨iff_of_false (by simp [hd]) hne, iff_of_false (by simp [hd]) fun h => hsome h.2, hrow, by simp [hd]⟩
  · have hno : ∀ row ∈ opcodeTable, row.hasWord w = false := by
      intro row hmem
      obtain ⟨i, -, rfl⟩ := List.mem_map.1 hmem
      by_contra hhas
      obtain ⟨j, hj⟩ := decodes_of_row_hasWord (Bool.not_eq_false _ ▸ hhas)
      rw [decodeWord_of_ne_zero hne, hj] at hd
      cases hd
    exact ⟨iff_of_false (by simp [hd]) hne, iff_of_true hd ⟨hne, hno⟩, hrow, by simp [hd]⟩

/-- Settles O1, by running the decoder on each word. -/
theorem sampleWordsDecode : Obligations.SampleWordsDecode := by
  unfold Obligations.SampleWordsDecode
  decide

/-- Settles O8: the word fetched is refused as the zero word, which halts. -/
theorem zeroWordHalts : Obligations.ZeroWordHalts := by
  intro s hs
  rw [step_of_fetches hs]
  rfl

end Sys2Proof.Proofs
end

section
/-! PROOFS. The family 40_engine: how every instruction moves the pc pair, the delay slot that follows from it, what a
step of a running core does by the word it fetches, and the exit status a run ends with. -/

namespace Sys2Proof.Machine

open Sys2Proof.Claims

/-! ### Targets of transfers as numbers (44_branch R160, 45_jump R180) -/

theorem boff_eq_ofInt (off : BitVec 16) : boff off = BitVec.ofInt 32 (4 * off.toInt) := by
  rw [boff, BitVec.shiftLeft_eq_mul_twoPow, mul_comm, BitVec.ofInt_mul]
  rfl

theorem branchTarget_eq_branchDest (s : State) (off : BitVec 16) : branchTarget s off = branchDest s off := by
  rw [branchTarget, branchDest, boff_eq_ofInt]

theorem branchDest_toNat (s : State) (off : BitVec 16) :
    ((branchDest s off).toNat : Int) = (s.npc.toNat + 4 * off.toInt) % 2 ^ 32 := by
  rw [branchDest, BitVec.toNat_add, BitVec.toNat_ofInt]
  omega

/-- Bits appended below a number. -/
theorem append_toNat {n m : Nat} (x : BitVec n) (y : BitVec m) : (x ++ y).toNat = x.toNat * 2 ^ m + y.toNat := by
  rw [BitVec.toNat_append, ← Nat.shiftLeft_add_eq_or_of_lt y.isLt, Nat.shiftLeft_eq]

theorem jumpTarget_eq_jumpDest (s : State) (index : BitVec 26) : jumpTarget s index = jumpDest s index := by
  apply BitVec.eq_of_toNat_eq
  have hpc := s.pc.isLt
  have hindex := index.isLt
  rw [jumpTarget, jumpDest, append_toNat, append_toNat, BitVec.extractLsb_toNat, BitVec.toNat_ofNat,
    Nat.shiftRight_eq_div_pow]
  simp only [BitVec.toNat_ofNat]
  omega

/-! ### The sign tests of the branches (44_branch R163 to R166) -/

theorem isPositive_iff {v : Word} : isPositive v = true ↔ v.toInt > 0 := decide_eq_true_iff

theorem not_isPositive_iff {v : Word} : (!isPositive v) = true ↔ v.toInt ≤ 0 := by
  rw [Bool.not_eq_true', ← Bool.not_eq_true, isPositive_iff, not_lt]

theorem isNegative_iff {v : Word} : isNegative v = true ↔ v.toInt < 0 := decide_eq_true_iff

theorem not_isNegative_iff {v : Word} : (!isNegative v) = true ↔ v.toInt ≥ 0 := by
  rw [Bool.not_eq_true', ← Bool.not_eq_true, isNegative_iff, not_lt]

/-! ### How an instruction moves the pc pair (40_engine R96, R97) -/

theorem DataEffect.keeps_npc {s u : State} (h : DataEffect s u) : u.npc = s.npc := by
  cases h <;> simp

/-- The answer is a next state, moved to `target` behind the delay slot or sequentially where there is none, its run
status as before; or there is no target and the answer is a fault. -/
def MovesPcPair (s : State) (target : Option Word) (r : StepResult) : Prop :=
  (∃ t, r = .next t ∧ t.status = s.status ∧ Redirects s t (target.getD (s.npc + 4))) ∨
    (target = none ∧ ∃ k, r = s.finishFault k)

section Moves
variable {s u : State}

theorem MovesPcPair.finishFault (k : FaultKind) : MovesPcPair s none (s.finishFault k) := .inr ⟨rfl, k, rfl⟩

/-- The sequential advance after any change of data. -/
theorem MovesPcPair.seq (hu : DataEffect s u) : MovesPcPair s none (.next u.seq) :=
  .inl ⟨_, rfl, hu.kept.1, hu.keeps_npc, congrArg (· + 4) hu.keeps_npc⟩

/-- The redirect after any change of data. -/
theorem MovesPcPair.redirect (hu : DataEffect s u) (t : Word) : MovesPcPair s (some t) (.next (u.redirect t)) :=
  .inl ⟨_, rfl, hu.kept.1, hu.keeps_npc, rfl⟩

theorem MovesPcPair.finishReg (d : RegIdx) (v : Word) : MovesPcPair s none (s.finishReg d v) := .seq (.reg d v)

theorem MovesPcPair.jump (hu : DataEffect s u) (index : BitVec 26) :
    MovesPcPair s (some (jumpDest s index)) (.next (u.redirect (jumpTarget s index))) := by
  rw [jumpTarget_eq_jumpDest]
  exact .redirect hu _

theorem MovesPcPair.ite {c : Prop} [Decidable c] {target : Option Word} {a b : StepResult}
    (ha : MovesPcPair s target a) (hb : MovesPcPair s target b) : MovesPcPair s target (if c then a else b) := by
  split
  · exact ha
  · exact hb

/-- A branch, whose link is written before it, by its condition in the spec's terms. -/
theorem MovesPcPair.branchIf (hu : DataEffect s u) {c : Bool} {p : Prop} [Decidable p] (hc : c = true ↔ p)
    (off : BitVec 16) : MovesPcPair s (destIf p s off) (branchIf c off u) := by
  have hdest : branchTarget u off = branchDest s off := by
    rw [branchTarget_eq_branchDest, branchDest, hu.keeps_npc, branchDest]
  unfold Machine.branchIf destIf
  rw [hdest]
  by_cases hp : p
  · rw [if_pos (hc.2 hp), if_pos hp]
    exact .redirect hu _
  · rw [if_neg (mt hc.1 hp), if_neg hp]
    exact .seq hu

theorem MovesPcPair.loadVia (n : AccessWidth) (ext : Word → Word) (rt rs : RegIdx) (off : BitVec 16) :
    MovesPcPair s none (loadVia n ext rt rs off s) := by
  unfold Machine.loadVia
  rcases memRead_cases s (effAddr s rs off) n with ⟨-, -, h⟩ | ⟨-, -, h⟩ | h <;> rw [h]
  · exact .finishReg ..
  · exact .seq (.input ..)
  · exact .finishFault ..

theorem MovesPcPair.storeVia (n : AccessWidth) (rt rs : RegIdx) (off : BitVec 16) :
    MovesPcPair s none (storeVia n rt rs off s) := by
  unfold Machine.storeVia
  rcases memWrite_cases s (effAddr s rs off) n (s.readReg rt) with ⟨ha, hr, h⟩ | ⟨-, -, h⟩ | h <;> rw [h]
  · exact .seq (.store _ _ _ ha hr)
  · exact .seq (.output _)
  · exact .finishFault ..

end Moves

/-- Every instruction moves the pc pair by its target, or faults and has none. -/
theorem exec_movesPcPair (i : Instr) (s : State) : MovesPcPair s (transferTarget s i) (exec i s) := by
  cases i with
  | add | addi | sub => exact .ite (.finishFault ..) (.finishReg ..)
  | addu | subu | addiu | slt | sltu | slti | sltiu | lui | and | or | xor | andi | ori | xori => exact .finishReg ..
  | mfhi | mflo | sll | srl | sra | sllv | srlv | srav => exact .finishReg ..
  | mult | multu => exact .seq (.hiLo ..)
  | mthi rs => exact .seq (.hiLo (s.readReg rs) s.lo)
  | mtlo rs => exact .seq (.hiLo s.hi (s.readReg rs))
  | div => exact .ite (.seq .nothing) (.ite (.seq (.hiLo ..)) (.seq (.hiLo ..)))
  | divu => exact .ite (.seq .nothing) (.seq (.hiLo ..))
  | beq => exact .branchIf .nothing beq_iff_eq _
  | bne => exact .branchIf .nothing bne_iff_ne _
  | blez => exact .branchIf .nothing not_isPositive_iff _
  | bgtz => exact .branchIf .nothing isPositive_iff _
  | bltz => exact .branchIf .nothing isNegative_iff _
  | bgez => exact .branchIf .nothing not_isNegative_iff _
  | bltzal => exact .branchIf (.reg ..) isNegative_iff _
  | bgezal => exact .branchIf (.reg ..) not_isNegative_iff _
  | j => exact .jump .nothing _
  | jal => exact .jump (.reg ..) _
  | jr => exact .redirect .nothing _
  | jalr => exact .redirect (.reg ..) _
  | lb | lbu | lh | lhu | lw => exact .loadVia ..
  | lwl | lwr => exact .ite (.finishReg ..) (.finishFault ..)
  | sb | sh | sw => exact .storeVia ..

/-- A taken transfer never faults. -/
theorem exec_of_transferTarget {i : Instr} {s : State} {target : Word} (h : transferTarget s i = some target) :
    ∃ t, exec i s = .next t ∧ t.status = s.status ∧ Redirects s t target := by
  obtain ⟨t, ht, hst, hmove⟩ | ⟨hnone, -⟩ := exec_movesPcPair i s
  · rw [h] at hmove
    exact ⟨t, ht, hst, hmove⟩
  · cases h.symm.trans hnone

/-- An instruction that leaves the core running has not faulted. -/
theorem exec_redirects_of_running {i : Instr} {s t : State} (h : exec i s = .next t) (hr : t.status = .running) :
    Redirects s t ((transferTarget s i).getD (s.npc + 4)) := by
  obtain ⟨u, hu, -, hmove⟩ | ⟨-, k, hk⟩ := exec_movesPcPair i s
  · cases hu.symm.trans h
    exact hmove
  · cases hk.symm.trans h
    cases hr

/-! ### What a step leaves -/

/-- An effect leaves the run status alone unless it is a fault. -/
theorem Effect.status_or_raise {s t : State} (h : Effect s t) : t.status = s.status ∨ ∃ k, t = s.raise k := by
  obtain ⟨u, n, hu, rfl⟩ | hk := h
  · exact .inl hu.kept.1
  · exact .inr hk

/-- A step that leaves the core running goes on at `npc`. -/
theorem step_pc_of_running {s t : State} (h : step s = .next t) (hr : t.status = .running) : t.pc = s.npc := by
  obtain ⟨-, ⟨rfl, -⟩ | ⟨u, n, -, rfl⟩ | ⟨k, rfl⟩⟩ := step_effect h
  · cases hr
  · rfl
  · cases hr

/-- A step that halts is the halt of the state before it. -/
theorem step_eq_halt {s t : State} {c : Byte} (h : step s = .next t) (hc : t.status = .halted c) :
    t = s.halt ∧ c = s.haltCode := by
  obtain ⟨hrun, ⟨rfl, -⟩ | he⟩ := step_effect h
  · cases hc
    exact ⟨rfl, rfl⟩
  · obtain hst | ⟨k, rfl⟩ := he.status_or_raise
    · rw [hst, hrun] at hc
      cases hc
    · cases hc

/-! ### The step by the word it fetches (40_engine R94, R95) -/

/-- Four bytes that decode are the bytes of a word that does (20_memory R42). -/
theorem decodeBytes_eq_ok {b0 b1 b2 b3 : Byte} {rest : List Byte} {i : Instr}
    (h : decodeBytes [b0, b1, b2, b3] = .ok (i, rest)) : decodeWord (wordOfBytes b0 b1 b2 b3) = .ok i := by
  simp only [decodeBytes] at h
  split at h
  · next j hj => cases h; exact hj
  · cases h

theorem step_of_decodeWord {s : State} {w : Word} {i : Instr} (hf : Fetches s w) (hd : decodeWord w = .ok i) :
    step s = exec i s := by
  rw [step_of_fetches hf, execWord, hd]

theorem step_of_unknown {s : State} {w : Word} (hf : Fetches s w) (hd : decodeWord w = .error .unknownEncoding) :
    step s = execUnknown s := by
  rw [step_of_fetches hf, execWord, hd]

/-! ### Runs -/

/-- What holds at the start of a run and is kept by every step holds of every state reached. -/
theorem Reaches.keeps {P : State → Prop} (hstep : ∀ s t, P s → Machine.step s = .next t → P t) {s t : State}
    (h : Reaches s t) (hs : P s) : P t := by
  induction h with
  | refl => exact hs
  | step hst _ ih => exact ih (hstep _ _ hs hst)

theorem State.boot_params (p : Params) (image input : List Byte) : (State.boot p image input).params = p := by
  unfold State.boot State.load
  split <;> rfl

theorem bigEndian_lt (m : Memory) (a n : Nat) : bigEndian m a n < 256 ^ n := by
  induction n with
  | zero => exact Nat.one_pos
  | succ n ih =>
    have hbyte := (Memory.read m (a + n)).isLt
    rw [bigEndian, pow_succ]
    omega

/-- A fetch of the zero word finds four zero bytes. -/
theorem fetch_eq_zero {s : State} {a : Word} (h : fetch s a = some 0) :
    a.toNat % 4 = 0 ∧ InInstr a ∧ bigEndian s.imem a.toNat 4 = 0 := by
  obtain ⟨ha, hr, hw⟩ := fetch_eq_some.1 h
  have hlt : bigEndian s.imem a.toNat 4 < 2 ^ 32 := bigEndian_lt ..
  have hzero := congrArg BitVec.toNat hw
  rw [Memory.readBE_eq_bigEndian, BitVec.toNat_ofNat] at hzero
  exact ⟨aligned_word_iff.1 ha, region_imem_iff.1 hr, (hzero.trans (Nat.mod_eq_of_lt hlt)).symm⟩

end Sys2Proof.Machine

namespace Sys2Proof.Proofs

open Sys2Proof.Machine Sys2Proof.Claims

/-- Settles O15, by how each instruction moves the pc pair. -/
theorem pcPairAdvancesOrRedirects : Obligations.PcPairAdvancesOrRedirects :=
  fun _ _ _ _ h hr => exec_redirects_of_running h hr

/-- Settles O16: the transfer leaves `npc` at its target, and the step after it goes on at that `npc`. -/
theorem delaySlotExecutesBeforeTheTarget : Obligations.DelaySlotExecutesBeforeTheTarget := by
  intro s w i target hf hd hnpc htarget
  obtain ⟨t, ht, hst, hpc, htnpc⟩ := exec_of_transferTarget htarget
  refine ⟨t, (step_of_decodeWord hf hd).trans ht, hst.trans hf.1, hpc.trans hnpc, fun u hu => ⟨fun hr => ?_, ?_⟩⟩
  · exact (step_pc_of_running hu hr).trans htnpc
  · exact fun hr _ => Reaches.eq_of_not_running hr

/-- Settles O17: after the first transfer `npc` is its target, from which the second instruction computes its own. -/
theorem transferInADelaySlot : Obligations.TransferInADelaySlot := by
  intro i1 i2 s t u t1 _ h1 htarget h2 hr
  obtain ⟨t', ht, -, -, hnpc⟩ := exec_of_transferTarget htarget
  cases ht.symm.trans h1
  have hmove := exec_redirects_of_running h2 hr
  rw [← hnpc]
  exact ⟨fun _ => rfl, rfl, hmove⟩

/-- Settles O9: only a halt leaves the status Halted. -/
theorem haltStatusIsTheLowByteOfRegisterTwo : Obligations.HaltStatusIsTheLowByteOfRegisterTwo := by
  intro s t c h hc
  obtain ⟨rfl, rfl⟩ := step_eq_halt h hc
  exact ⟨low_byte_eq_ofNat _, rfl, rfl⟩

/-- Settles O12: the cycle of a running core answers whatever it fetches. -/
theorem runningCoreAlwaysSteps : Obligations.RunningCoreAlwaysSteps := by
  intro s hr
  obtain ⟨t, ht, -⟩ := cycle_effect s
  exact ⟨t, (step_running hr).trans ht⟩

/-- Settles O24: the invariant holds of every state reached, and the parameters are those of the boot. -/
theorem endedRunsReportTheirExitStatus : Obligations.EndedRunsReportTheirExitStatus := by
  intro p image input t hreach
  have hinv : t.Inv := hreach.keeps stepKeepsTheInvariant (State.boot_inv p image input)
  have hparams : t.params = p :=
    hreach.keeps (P := fun t => t.params = p)
      (fun s t hs h => (stepKeepsInstructionMemoryAndParameters s t h).2.trans hs) (State.boot_params p image input)
  have hok := hinv.status_ok
  refine ⟨fun c hc => ?_, fun k c hc => ?_⟩
  · rw [State.statusOk, hc] at hok
    obtain ⟨hcode, hstop⟩ := hok
    rw [State.exitStatus, hc, hcode]
    exact ⟨rfl, hstop.imp_right fetch_eq_zero⟩
  · rw [State.statusOk, hc, hparams] at hok
    rw [State.exitStatus, hc, hok]

/-- Settles O47: exact arithmetic on the branch target, and the move of a taken branch with offset 0. -/
theorem branchTargetIsRelativeToTheDelaySlot : Obligations.BranchTargetIsRelativeToTheDelaySlot := by
  intro s off
  have hlo := off.le_toInt
  have hhi := off.toInt_lt
  have hdest := branchDest_toNat s off
  rw [branchTarget_eq_branchDest]
  refine ⟨⟨_, rfl, by omega, by omega, hdest⟩, fun hnpc => by omega, fun hnpc => ?_, fun r => ?_⟩
  · rw [branchTarget_eq_branchDest, branchDest, hnpc, BitVec.add_assoc]
    exact BitVec.add_zero _
  · obtain ⟨t, ht, -, hpc, hnpc⟩ := exec_of_transferTarget (i := .beq r r 0) (s := s) (if_pos rfl)
    exact ⟨t, ht, hpc, hnpc.trans (BitVec.add_zero _)⟩

/-- Settles O5: the four bytes are the word fetched. -/
theorem stepRunsTheDecodedInstruction : Obligations.StepRunsTheDecodedInstruction := by
  rintro s _ _ _ _ i hrun ha hi rfl rfl rfl rfl hd
  have hf : Fetches s (Memory.readBE s.imem s.pc.toNat .word) :=
    fetches_iff.2 ⟨hrun, fetch_eq_some.2 ⟨aligned_word_iff.2 ha, region_imem_iff.2 hi, rfl⟩⟩
  exact step_of_decodeWord hf (decodeBytes_eq_ok hd)

/-- Settles O6, by the two policies. -/
theorem unknownWordFollowsThePolicy : Obligations.UnknownWordFollowsThePolicy := by
  refine ⟨rfl, fun s w hf hd => ⟨fun hp => ?_, fun hp => ?_⟩⟩
  · refine ⟨s.seq, ?_, fun _ => rfl, ⟨rfl, rfl⟩, ⟨fun _ => rfl, fun _ => rfl⟩, ⟨rfl, rfl⟩, ⟨rfl, rfl⟩, rfl, rfl⟩
    rw [step_of_unknown hf hd, execUnknown, hp]
  · rw [step_of_unknown hf hd, execUnknown, hp]
    rfl

end Sys2Proof.Proofs
end

section
/-! PROOFS. The family 41_arithmetic: which words are its instructions, how an instruction that writes one register
completes, and the values the instructions write as exact arithmetic. -/

namespace Sys2Proof.Claims

open Sys2Proof.Machine

/-! ### Which words an opcode or a function code selects (30_encoding R73, R74) -/

/-- A nonzero opcode is a nonzero word, so its arm of the primary opcode map is the whole decoding. The arm is read off
the map by default. -/
theorem PrimaryOpcode.of_decodeNonzero {op : BitVec 6} {f : Word → Instr} (hop : op ≠ 0)
    (hf : ∀ w, opcodeOf w = op → decodeNonzero w = .ok (f w) := by intro w h; simp [decodeNonzero, h]) :
    PrimaryOpcode op f := fun w hw =>
  (decodeWord_of_ne_zero (ne_zero_of_opcode (hw ▸ hop))).trans (hf w hw)

/-- An arm of the function-code map decodes every SPECIAL word of its code but the zero word. The arm is read off the
map by default. -/
theorem SpecialFunct.of_decodeSpecial {funct : BitVec 6} {f : Word → Instr}
    (hf : ∀ w, functOf w = funct → decodeSpecial w = .ok (f w) := by intro w h; simp [decodeSpecial, h]) :
    SpecialFunct funct f := fun w h0 hop hfn =>
  ((decodeWord_of_ne_zero h0).trans (decodeNonzero_special hop)).trans (hf w hfn)

/-! ### How an instruction that writes one register completes (40_engine R90, R96) -/

theorem writesReg_writeReg (s : State) (d : RegIdx) (v : Word) : WritesReg s (s.writeReg d v) d v := by
  intro r
  simp [State.readReg_writeReg, State.isHardwired, and_comm]

/-- An instruction that finishes with `v` completes with every spelling `v'` of that word. -/
theorem CompletesWithReg.of_finishReg {i : Instr} {s : State} {d : RegIdx} {v v' : Word}
    (hi : exec i s = s.finishReg d v) (hv : v = v') : CompletesWithReg i s d v' := by
  subst hv
  refine ⟨_, hi, writesReg_writeReg s d v, ?_⟩
  simp [SameHiLo, SameMemory, SameStreams, SameRun, Advances]

end Sys2Proof.Claims

namespace Sys2Proof.Machine

/-! ### Sums and differences as integers (41_arithmetic R110 to R116) -/

theorem ofInt_toInt_add (a b : Word) : BitVec.ofInt 32 (a.toInt + b.toInt) = a + b := by
  rw [BitVec.ofInt_add, BitVec.ofInt_toInt, BitVec.ofInt_toInt]

theorem ofInt_toInt_sub (a b : Word) : BitVec.ofInt 32 (a.toInt - b.toInt) = a - b := by
  rw [sub_eq_add_neg, BitVec.ofInt_add, BitVec.ofInt_neg, BitVec.ofInt_toInt, BitVec.ofInt_toInt,
    BitVec.sub_eq_add_neg]

/-- The sign-extended immediate is the immediate as a signed integer (30_encoding R72). -/
theorem simm_toInt (imm : BitVec 16) : (simm imm).toInt = imm.toInt := BitVec.toInt_signExtend_of_le (by decide)

theorem inSignedRange_iff {n : Int} : inSignedRange n = true ↔ -2 ^ 31 ≤ n ∧ n ≤ 2 ^ 31 - 1 := by
  simp [inSignedRange]

section Checked
variable {a b : Word} (d : RegIdx) (s : State)

theorem addChecked_of_inSignedRange (h : -2 ^ 31 ≤ a.toInt + b.toInt ∧ a.toInt + b.toInt ≤ 2 ^ 31 - 1) :
    addChecked d a b s = s.finishReg d (a + b) := by
  simp [addChecked, addOverflows, inSignedRange_iff.2 h]

theorem addChecked_of_not_inSignedRange (h : ¬ (-2 ^ 31 ≤ a.toInt + b.toInt ∧ a.toInt + b.toInt ≤ 2 ^ 31 - 1)) :
    addChecked d a b s = s.finishFault .arithmeticOverflow := by
  simp [addChecked, addOverflows, mt inSignedRange_iff.1 h]

theorem subChecked_of_inSignedRange (h : -2 ^ 31 ≤ a.toInt - b.toInt ∧ a.toInt - b.toInt ≤ 2 ^ 31 - 1) :
    subChecked d a b s = s.finishReg d (a - b) := by
  simp [subChecked, subOverflows, inSignedRange_iff.2 h]

theorem subChecked_of_not_inSignedRange (h : ¬ (-2 ^ 31 ≤ a.toInt - b.toInt ∧ a.toInt - b.toInt ≤ 2 ^ 31 - 1)) :
    subChecked d a b s = s.finishFault .arithmeticOverflow := by
  simp [subChecked, subOverflows, mt inSignedRange_iff.1 h]

end Checked

/-! ### Comparisons and the upper immediate (41_arithmetic R117 to R121) -/

theorem boolWord_lessSigned (a b : Word) : boolWord (lessSigned a b) = if a.toInt < b.toInt then 1 else 0 := by
  simp [boolWord, lessSigned]

theorem boolWord_lessUnsigned (a b : Word) : boolWord (lessUnsigned a b) = if a.toNat < b.toNat then 1 else 0 := by
  simp [boolWord, lessUnsigned]

/-- The sign-extended immediate read unsigned (41_arithmetic R120). -/
theorem simm_toNat (imm : BitVec 16) : ((simm imm).toNat : Int) = imm.toInt % 2 ^ 32 := by
  rw [simm, BitVec.signExtend, BitVec.toNat_ofInt]
  omega

theorem luimm_eq_ofNat (imm : BitVec 16) : luimm imm = BitVec.ofNat 32 (imm.toNat * 2 ^ 16) := by
  apply BitVec.eq_of_toNat_eq
  have himm := imm.isLt
  rw [luimm, append_toNat, BitVec.toNat_ofNat, BitVec.toNat_ofNat]
  omega

end Sys2Proof.Machine

namespace Sys2Proof.Proofs

open Sys2Proof.Machine Sys2Proof.Claims

/-- Settles O36: the check is the range of the exact sum or difference, for the immediate through its sign extension. -/
theorem overflowCheckedArithmetic : Obligations.OverflowCheckedArithmetic := by
  refine ⟨.of_decodeSpecial, .of_decodeSpecial, .of_decodeNonzero (by decide), fun s rd rs rt imm => ?_⟩
  dsimp only
  rw [← simm_toInt imm, ofInt_toInt_add, ofInt_toInt_sub, ofInt_toInt_add]
  exact ⟨fun h => .of_finishReg (addChecked_of_inSignedRange rd s h) rfl, addChecked_of_not_inSignedRange rd s,
    fun h => .of_finishReg (subChecked_of_inSignedRange rd s h) rfl, subChecked_of_not_inSignedRange rd s,
    fun h => .of_finishReg (addChecked_of_inSignedRange rt s h) rfl, addChecked_of_not_inSignedRange rt s⟩

/-- Settles O37: a sum or difference of words is that of the integers, modulo 2^32. -/
theorem wrappingArithmetic : Obligations.WrappingArithmetic := by
  refine ⟨.of_decodeSpecial, .of_decodeSpecial, .of_decodeNonzero (by decide), fun s rd rs rt imm => ?_⟩
  refine ⟨.of_finishReg rfl rfl, .of_finishReg rfl (ofInt_toInt_sub ..).symm, .of_finishReg rfl ?_⟩
  rw [← simm_toInt, ofInt_toInt_add]

/-- Settles O38: a comparison's word, for the immediate by what its sign extension reads as, signed or unsigned. -/
theorem setOnLessThan : Obligations.SetOnLessThan := by
  refine ⟨.of_decodeSpecial, .of_decodeSpecial, .of_decodeNonzero (by decide), .of_decodeNonzero (by decide),
    fun s rd rs rt imm => ?_⟩
  refine ⟨.of_finishReg rfl (boolWord_lessSigned ..), .of_finishReg rfl (boolWord_lessUnsigned ..),
    .of_finishReg rfl ?_, .of_finishReg rfl ?_⟩
  · rw [boolWord_lessSigned, simm_toInt]
  · simp only [boolWord_lessUnsigned, ← simm_toNat, Nat.cast_lt]

/-- Settles O39: the immediate over sixteen zero bits is the immediate times 2^16. -/
theorem loadUpperImmediate : Obligations.LoadUpperImmediate :=
  ⟨.of_decodeNonzero (by decide), fun _ _ imm => .of_finishReg rfl (luimm_eq_ofNat imm)⟩

end Sys2Proof.Proofs
end

section
/-! PROOFS. The family 42_multiply_divide: how an instruction that writes HI and LO completes, and the two halves of a
product and the quotient and remainder as exact arithmetic. -/

namespace Sys2Proof.Claims

open Sys2Proof.Machine

/-! ### How an instruction that writes HI and LO completes (40_engine R96, 10_state R23) -/

theorem CompletesWithHiLo.of_writeHiLo {i : Instr} {s : State} {h l : Word} {P : Word → Word → Prop}
    (hi : exec i s = .next (s.writeHiLo h l).seq) (hP : P h l) : CompletesWithHiLo i s P := by
  refine ⟨_, hi, hP, ?_⟩
  simp [SameRegs, SameMemory, SameStreams, SameRun, Advances]

/-- An instruction that only advances writes back the old HI and LO. -/
theorem CompletesWithHiLo.of_seq {i : Instr} {s : State} {P : Word → Word → Prop}
    (hi : exec i s = .next s.seq) (hP : P s.hi s.lo) : CompletesWithHiLo i s P :=
  .of_writeHiLo hi hP

end Sys2Proof.Claims

namespace Sys2Proof.Machine

variable (a b : Word)

/-! ### The halves of a 64-bit product (42_multiply_divide R140, R141) -/

/-- The upper half carries the sign of a 64-bit word, the lower half is unsigned. -/
theorem toInt_eq_halves (q : BitVec 64) :
    (q.extractLsb 63 32).toInt * 2 ^ 32 + (q.extractLsb 31 0).toNat = q.toInt := by
  have hq := q.isLt
  simp only [BitVec.toInt_eq_toNat_cond, BitVec.extractLsb_toNat, Nat.shiftRight_eq_div_pow]
  omega

/-- The product of two signed words fits in 64 bits. -/
theorem toInt_ofInt_product : (BitVec.ofInt 64 (a.toInt * b.toInt)).toInt = a.toInt * b.toInt := by
  have hle : a.toInt * b.toInt ≤ 2 ^ 62 := BitVec.toInt_mul_toInt_le
  have hge : -2 ^ 62 ≤ a.toInt * b.toInt := BitVec.le_toInt_mul_toInt
  exact BitVec.toInt_ofInt_eq_self (by decide) (by omega) (by omega)

/-- The product of two unsigned words fits in 64 bits. -/
theorem toNat_halves_product :
    (BitVec.ofNat 32 (a.toNat * b.toNat / 2 ^ 32)).toNat * 2 ^ 32 +
      (BitVec.ofNat 32 (a.toNat * b.toNat % 2 ^ 32)).toNat = a.toNat * b.toNat := by
  have hlt : a.toNat * b.toNat < 2 ^ 64 := BitVec.toNat_mul_toNat_lt
  rw [BitVec.toNat_ofNat, BitVec.toNat_ofNat]
  omega

/-! ### Unsigned division (42_multiply_divide R143) -/

theorem execDivu_of_eq_zero {rs rt : RegIdx} {s : State} (h : s.readReg rt = 0) : execDivu rs rt s = .next s.seq :=
  if_pos h

/-- The remainder and quotient DIVU writes are those of the library's unsigned division. -/
theorem execDivu_of_ne_zero {rs rt : RegIdx} {s : State} (h : s.readReg rt ≠ 0) :
    execDivu rs rt s =
      .next (s.writeHiLo (s.readReg rs % s.readReg rt) (s.readReg rs / s.readReg rt)).seq := by
  rw [BitVec.umod_def, BitVec.udiv_def]
  exact if_neg h

/-- Quotient and remainder of words are those of the naturals. -/
theorem udiv_mul_add_umod : (a / b).toNat * b.toNat + (a % b).toNat = a.toNat := by
  rw [BitVec.toNat_udiv, BitVec.toNat_umod, Nat.div_add_mod']

end Sys2Proof.Machine

namespace Sys2Proof.Proofs

open Sys2Proof.Machine Sys2Proof.Claims

/-- Settles O41: the exact product fits in 64 bits, and its two halves make it. -/
theorem multiplyGivesTheFullProduct : Obligations.MultiplyGivesTheFullProduct := by
  refine ⟨.of_decodeSpecial, .of_decodeSpecial, fun s rs rt => ⟨.of_writeHiLo rfl ?_, .of_writeHiLo rfl ?_⟩⟩
  · exact (toInt_eq_halves _).trans (toInt_ofInt_product ..)
  · exact toNat_halves_product ..

/-- Settles O43: division with remainder on words, and no write for a zero divisor. -/
theorem unsignedDivide : Obligations.UnsignedDivide := by
  refine ⟨.of_decodeSpecial, fun s rs rt => ⟨fun hb => ?_, fun hb => ?_⟩⟩
  · exact .of_seq (execDivu_of_eq_zero hb) ⟨rfl, rfl⟩
  · exact .of_writeHiLo (execDivu_of_ne_zero hb)
      ⟨udiv_mul_add_umod .., BitVec.umod_lt _ ((BitVec.pos_iff_ne_zero _).2 hb)⟩

end Sys2Proof.Proofs
end

section
/-! PROOFS. The family 43_shift: the bits of a shifted word, and the amount of a variable shift as a number. -/

namespace Sys2Proof.Machine

/-! ### The bits of a shifted word (43_shift R150 to R152) -/

section Bits
variable (x : Word) (n : Nat) {k : Nat}

/-- Zeros come in at the low end. -/
theorem shiftLeft_bit (hk : k < 32) : (x <<< n).getLsbD k = (decide (n ≤ k) && x.getLsbD (k - n)) := by
  rw [BitVec.getLsbD_shiftLeft, ← decide_not]
  simp only [hk, Nat.not_lt, decide_true, Bool.true_and]

/-- Zeros come in at the high end: a word has no bit at 32 or above. -/
theorem ushiftRight_bit : (x >>> n).getLsbD k = (decide (k + n < 32) && x.getLsbD (k + n)) := by
  rw [BitVec.getLsbD_ushiftRight, Nat.add_comm n k]
  by_cases h : k + n < 32
  · simp [h]
  · simp [h, BitVec.getLsbD_of_ge x (k + n) (Nat.le_of_not_lt h)]

/-- Copies of bit 31 come in at the high end. -/
theorem sshiftRight_bit (hk : k < 32) :
    (x.sshiftRight n).getLsbD k = if k + n < 32 then x.getLsbD (k + n) else x.getLsbD 31 := by
  simp [BitVec.getLsbD_sshiftRight, Nat.not_le_of_lt hk, Nat.add_comm n k, BitVec.msb_eq_getLsbD_last]

end Bits

/-- The low 5 bits of a register are its value modulo 32 (43_shift R153). -/
theorem shiftAmount_toNat (v : Word) : (shiftAmount v).toNat = v.toNat % 32 := by
  simp [shiftAmount, BitVec.extractLsb_toNat]

end Sys2Proof.Machine

namespace Sys2Proof.Claims

open Sys2Proof.Machine

/-! ### How a shift completes, whichever form gives its amount -/

section Shifts
variable {i : Instr} {s : State} {d : RegIdx} {x : Word} {n : Nat}

theorem completesWithReg_shiftLeft (hi : exec i s = s.finishReg d (x <<< n)) :
    ∃ v, CompletesWithReg i s d v ∧ ∀ k < 32, v.getLsbD k = (decide (n ≤ k) && x.getLsbD (k - n)) :=
  ⟨_, .of_finishReg hi rfl, fun _ => shiftLeft_bit x n⟩

theorem completesWithReg_ushiftRight (hi : exec i s = s.finishReg d (x >>> n)) :
    ∃ v, CompletesWithReg i s d v ∧ ∀ k < 32, v.getLsbD k = (decide (k + n < 32) && x.getLsbD (k + n)) :=
  ⟨_, .of_finishReg hi rfl, fun _ _ => ushiftRight_bit x n⟩

theorem completesWithReg_sshiftRight (hi : exec i s = s.finishReg d (x.sshiftRight n)) :
    ∃ v, CompletesWithReg i s d v ∧
      ∀ k < 32, v.getLsbD k = if k + n < 32 then x.getLsbD (k + n) else x.getLsbD 31 :=
  ⟨_, .of_finishReg hi rfl, fun _ => sshiftRight_bit x n⟩

end Shifts

end Sys2Proof.Claims

namespace Sys2Proof.Proofs

open Sys2Proof.Machine Sys2Proof.Claims

/-- Settles O45: each shift completes with register T shifted by the shamt field. -/
theorem constantShiftsBitByBit : Obligations.ConstantShiftsBitByBit := by
  refine ⟨.of_decodeSpecial, .of_decodeSpecial, .of_decodeSpecial, fun s rd rt sa => ?_⟩
  exact ⟨completesWithReg_shiftLeft rfl, completesWithReg_ushiftRight rfl, completesWithReg_sshiftRight rfl⟩

/-- Settles O46: the same three shifts, their amount the low 5 bits of register S in the state before the write. -/
theorem variableShiftsBitByBit : Obligations.VariableShiftsBitByBit := by
  refine ⟨.of_decodeSpecial, .of_decodeSpecial, .of_decodeSpecial, fun s rd rt rs => ?_⟩
  rw [← shiftAmount_toNat]
  exact ⟨completesWithReg_shiftLeft rfl, completesWithReg_ushiftRight rfl, completesWithReg_sshiftRight rfl⟩

end Sys2Proof.Proofs
end

section
/-! PROOFS. The family 44_branch: which words a B_SPEC discriminator selects, a branch as one redirect whether or not it
is taken, and what a redirect leaves as it was, with and without a link. -/

namespace Sys2Proof.Machine

open Sys2Proof.Claims

/-! ### A branch as one redirect (44_branch R160) -/

/-- A branch redirects to its target or, not taken, to the instruction after the delay slot, where it would advance to.
`u` is the state `s` of the branch, with its link already written where it has one. -/
theorem branchIf_eq_redirect {c : Bool} {p : Prop} [Decidable p] (hc : c = true ↔ p) (off : BitVec 16) {s u : State}
    (hnpc : u.npc = s.npc) : branchIf c off u = .next (u.redirect ((destIf p s off).getD (s.npc + 4))) := by
  by_cases hp : p
  · have hdest : branchTarget u off = branchDest s off := by
      rw [branchTarget_eq_branchDest, branchDest, hnpc, branchDest]
    rw [branchIf, if_pos (hc.2 hp), destIf, if_pos hp, hdest, Option.getD_some]
  · rw [branchIf, if_neg (mt hc.1 hp), destIf, if_neg hp, Option.getD_none, State.seq, State.redirect, hnpc]

end Sys2Proof.Machine

namespace Sys2Proof.Claims

open Sys2Proof.Machine

/-! ### Which words a discriminator selects (30_encoding R75) -/

/-- An arm of the discriminator map decodes every B_SPEC word of its discriminator. The arm is read off the map by
default. -/
theorem BranchDiscriminator.of_decodeBranchSpecial {d : BitVec 5} {f : Word → Instr}
    (hf : ∀ w, rtOf w = d → decodeBranchSpecial w = .ok (f w) := by intro w h; simp [decodeBranchSpecial, h]) :
    BranchDiscriminator d f := fun w hop hd =>
  have hne : w ≠ 0 := ne_zero_of_opcode (hop ▸ by decide)
  ((decodeWord_of_ne_zero hne).trans (decodeNonzero_branchSpecial hop)).trans (hf w hd)

/-! ### How a transfer completes (40_engine R97, R99) -/

section Transfers
variable {i : Instr} {s : State} {target : Option Word}

theorem CompletesWithFlow.of_redirect (hi : exec i s = .next (s.redirect (target.getD (s.npc + 4)))) :
    CompletesWithFlow i s target := by
  refine ⟨_, hi, ?_⟩
  simp [SameRegs, SameHiLo, SameMemory, SameStreams, SameRun, Redirects]

theorem CompletesWithLink.of_writeReg_redirect {d : RegIdx}
    (hi : exec i s = .next ((s.writeReg d (linkValue s)).redirect (target.getD (s.npc + 4)))) :
    CompletesWithLink i s d target := by
  refine ⟨_, hi, writesReg_writeReg s d (linkValue s), ?_⟩
  simp [SameHiLo, SameMemory, SameStreams, SameRun, Redirects]

end Transfers

/-! ### How a branch completes, by its condition in the spec's terms (44_branch R160) -/

section Branches
variable {i : Instr} {s : State} {c : Bool} {p : Prop} [Decidable p] {off : BitVec 16}

theorem CompletesWithFlow.of_branchIf (hi : exec i s = branchIf c off s) (hc : c = true ↔ p) :
    CompletesWithFlow i s (destIf p s off) :=
  .of_redirect (hi.trans (branchIf_eq_redirect hc off rfl))

/-- The link is written before the redirect and leaves `npc`, from which the target is computed, as it was. -/
theorem CompletesWithLink.of_branchIf {d : RegIdx} (hi : exec i s = branchIf c off (s.writeReg d (linkValue s)))
    (hc : c = true ↔ p) : CompletesWithLink i s d (destIf p s off) :=
  .of_writeReg_redirect (hi.trans (branchIf_eq_redirect hc off (by simp)))

end Branches

end Sys2Proof.Claims

namespace Sys2Proof.Proofs

open Sys2Proof.Machine Sys2Proof.Claims

/-- Settles O48: each is a branch on the equality of its two registers. -/
theorem equalityBranchesRedirect : Obligations.EqualityBranchesRedirect := by
  refine ⟨.of_decodeNonzero (by decide), .of_decodeNonzero (by decide), fun s rs rt off => ?_⟩
  exact ⟨.of_branchIf rfl beq_iff_eq, .of_branchIf rfl bne_iff_ne⟩

/-- Settles O49: each is a branch on a sign test, which says how the signed register compares with zero. -/
theorem signBranchesRedirect : Obligations.SignBranchesRedirect := by
  refine ⟨.of_decodeNonzero (by decide), .of_decodeNonzero (by decide), .of_decodeBranchSpecial,
    .of_decodeBranchSpecial, fun s rs off => ?_⟩
  exact ⟨.of_branchIf rfl not_isPositive_iff, .of_branchIf rfl isPositive_iff, .of_branchIf rfl isNegative_iff,
    .of_branchIf rfl not_isNegative_iff⟩

/-- Settles O50: each is a branch on a sign test of the register before the link, from the state after it. -/
theorem linkingBranchesAlwaysLink : Obligations.LinkingBranchesAlwaysLink := by
  refine ⟨.of_decodeBranchSpecial, .of_decodeBranchSpecial, fun s rs off => ?_⟩
  exact ⟨.of_branchIf rfl isNegative_iff, .of_branchIf rfl not_isNegative_iff⟩

end Sys2Proof.Proofs
end

section
/-! PROOFS. The family 45_jump: the three parts of a jump target, its upper bits as a number, and what a call leaves in
its link register. -/

namespace Sys2Proof.Machine

open Sys2Proof.Claims

/-! ### The parts of the jump target (45_jump R180) -/

/-- The bits of a word from bit `n` on are those of its number divided by `2^n`. -/
theorem getLsbD_add_of_div_eq {x y : Word} {n : Nat} (h : x.toNat / 2 ^ n = y.toNat / 2 ^ n) (k : Nat) :
    x.getLsbD (n + k) = y.getLsbD (n + k) := by
  simp only [BitVec.getLsbD, Nat.add_comm n k, ← Nat.testBit_div_two_pow, h]

/-- The index and its two zero bits stay below bit 28. -/
theorem jumpTarget_div (s : State) (index : BitVec 26) :
    (jumpTarget s index).toNat / 2 ^ 28 = s.pc.toNat / 2 ^ 28 := by
  have hpc := s.pc.isLt
  have hindex := index.isLt
  rw [jumpTarget_eq_jumpDest, jumpDest, BitVec.toNat_ofNat]
  omega

/-- Past the two zero bits, the index is the lower part of what is appended to. -/
theorem jumpTarget_bit_index (s : State) (index : BitVec 26) {k : Nat} (hk : k < 26) :
    (jumpTarget s index).getLsbD (2 + k) = index.getLsbD k := by
  refine BitVec.getLsbD_append.trans ?_
  rw [if_neg (Nat.not_lt.2 (Nat.le_add_right 2 k)), Nat.add_sub_cancel_left]
  exact BitVec.getLsbD_append.trans (if_pos hk)

theorem jumpTarget_bit_low (s : State) (index : BitVec 26) {k : Nat} (hk : k < 2) :
    (jumpTarget s index).getLsbD k = false :=
  (BitVec.getLsbD_append.trans (if_pos hk)).trans BitVec.getLsbD_zero

/-- The instruction segment lies inside one region of `2^28` bytes, and so does the word after it. -/
theorem inInstr_div {a : Word} (hi : InInstr a) :
    a.toNat / 2 ^ 28 = 1 ∧ (a + 4).toNat / 2 ^ 28 = 1 := by
  obtain ⟨hlo, hhi⟩ := hi
  rw [BitVec.toNat_add, show (4 : Word).toNat = 4 from rfl]
  omega

end Sys2Proof.Machine

namespace Sys2Proof.Claims

open Sys2Proof.Machine

/-! ### The jumps that link (45_jump R182, R184) -/

theorem jal_completesWithLink (s : State) (index : BitVec 26) :
    CompletesWithLink (.jal index) s 31 (some (jumpDest s index)) := by
  rw [← jumpTarget_eq_jumpDest]
  exact .of_writeReg_redirect rfl

theorem jalr_completesWithLink (s : State) (rd rs : RegIdx) :
    CompletesWithLink (.jalr rd rs) s rd (some (s.readReg rs)) := .of_writeReg_redirect rfl

/-- What a link register that keeps what is written holds afterwards. -/
theorem CompletesWithLink.readReg_link {i : Instr} {s t : State} {d : RegIdx} {target : Option Word}
    (h : CompletesWithLink i s d target) (ht : exec i s = .next t) (hd : ¬ (d = 0 ∧ s.params.r0Hardwired = true)) :
    t.readReg d = s.npc + 4 := by
  obtain ⟨u, hu, hwrites, -⟩ := h
  cases hu.symm.trans ht
  rw [hwrites d, if_pos ⟨rfl, hd⟩]

end Sys2Proof.Claims

namespace Sys2Proof.Proofs

open Sys2Proof.Machine Sys2Proof.Claims

/-- Settles O51: the upper bits by division by 2^28, the index and the zeros as the parts appended. -/
theorem jumpTargetKeepsTheUpperBitsOfPc : Obligations.JumpTargetKeepsTheUpperBitsOfPc := by
  intro s index
  refine ⟨fun k _ => getLsbD_add_of_div_eq (jumpTarget_div s index) k, fun k => jumpTarget_bit_index s index,
    fun k => jumpTarget_bit_low s index, fun _ hi => ?_⟩
  obtain ⟨hpc, hslot⟩ := inInstr_div hi
  exact ⟨fun k _ => getLsbD_add_of_div_eq (hpc.trans hslot.symm) k, (jumpTarget_div s index).trans hpc⟩

/-- Settles O52: each redirects to its target, JAL after its link. -/
theorem absoluteJumpsRedirect : Obligations.AbsoluteJumpsRedirect := by
  refine ⟨.of_decodeNonzero (by decide), .of_decodeNonzero (by decide), fun s index => ⟨?_, ?_⟩⟩
  · rw [← jumpTarget_eq_jumpDest]
    exact .of_redirect rfl
  · exact jal_completesWithLink s index

/-- Settles O53: each redirects to the register as it was, JALR after its link. -/
theorem registerJumpsRedirect : Obligations.RegisterJumpsRedirect :=
  ⟨.of_decodeSpecial, .of_decodeSpecial, fun s rd rs => ⟨.of_redirect rfl, jalr_completesWithLink s rd rs⟩⟩

/-- Settles O54: either call leaves A + 8 in its link register, to which JR redirects. -/
theorem callThenReturn : Obligations.CallThenReturn := by
  intro s t u v r i hcall hnpc ht hkept hv
  have hlink : t.readReg r = s.npc + 4 := by
    obtain ⟨index, rfl, rfl⟩ | ⟨rs, rfl, hr⟩ := hcall
    · exact (jal_completesWithLink s index).readReg_link ht (fun h => absurd h.1 (by decide))
    · exact (jalr_completesWithLink s r rs).readReg_link ht hr
  obtain ⟨v', hv', -, hpc, htarget⟩ := exec_of_transferTarget (i := .jr r) (s := u) rfl
  cases hv'.symm.trans hv
  refine ⟨hpc, ?_⟩
  calc v.npc = u.readReg r := htarget
    _ = s.pc + 4 + 4 := by rw [hkept, hlink, hnpc]
    _ = s.pc + 8 := BitVec.add_assoc ..

end Sys2Proof.Proofs
end

section
/-! PROOFS. The family 46_load_store: the effective address as a number, what a load or a store does by the condition
its access primitive puts on the address, and the bytes of memory that LWL and LWR merge. -/

namespace Sys2Proof.Machine

open Sys2Proof.Claims

/-! ### The effective address and the word that contains it (46_load_store R190, R196) -/

theorem effAddr_toNat (s : State) (rs : RegIdx) (off : BitVec 16) :
    ((effAddr s rs off).toNat : Int) = ((s.readReg rs).toNat + off.toInt) % 2 ^ 32 := by
  have hoff := simm_toNat off
  rw [effAddr, BitVec.toNat_add]
  omega

theorem byteOffset_toNat (a : Word) : (byteOffset a).toNat = a.toNat % 4 := by
  simp [byteOffset, BitVec.extractLsb_toNat]

/-- Clearing the two low bits takes the byte offset away. -/
theorem alignedWord_toNat (a : Word) : (alignedWord a).toNat = a.toNat - a.toNat % 4 := by
  have hmask : alignedWord a = a >>> 2 <<< 2 := (BitVec.shiftLeft_ushiftRight (n := 2)).symm
  have ha := a.isLt
  rw [hmask, BitVec.toNat_shiftLeft, BitVec.toNat_ushiftRight, Nat.shiftLeft_eq, Nat.shiftRight_eq_div_pow]
  omega

/-- The data segment begins and ends with a whole word. -/
theorem region_alignedWord {a : Word} (ha : InData a) : region (alignedWord a) = .dmem := by
  rw [region_dmem_iff, alignedWord_toNat]
  omega

/-! ### Where a load or a store faults (20_memory R44) -/

section Faults
variable {s : State} {a : Word} {n : AccessWidth}

theorem AccessWidth.bytes_ne_two_iff : n.bytes ≠ 2 ↔ n ≠ .half := by
  cases n <;> simp [AccessWidth.bytes]

theorem memRead_eq_none (hd : ¬ (a.toNat % n.bytes = 0 ∧ InData a)) (hp : ¬ (a = Config.getcAddr ∧ n.bytes ≠ 2)) :
    memRead s a n = none := by
  rw [← Option.not_isSome_iff_eq_none, memRead_isSome_iff, ← AccessWidth.bytes_ne_two_iff, aligned_iff,
    region_dmem_iff]
  exact not_or.2 ⟨hd, hp⟩

theorem memWrite_eq_none {v : Word} (hd : ¬ (a.toNat % n.bytes = 0 ∧ InData a))
    (hp : ¬ (a = Config.putcAddr ∧ n.bytes ≠ 2)) : memWrite s a n v = none := by
  rw [← Option.not_isSome_iff_eq_none, memWrite_isSome_iff, ← AccessWidth.bytes_ne_two_iff, aligned_iff,
    region_dmem_iff]
  exact not_or.2 ⟨hd, hp⟩

end Faults

/-! ### The values of the loads (46_load_store R191 to R194, 20_memory R49) -/

theorem getcValue_eq_inputValue (s : State) : s.getcValue = inputValue s := by
  unfold State.getcValue inputValue
  cases s.input <;> rfl

theorem low_byte_truncateTo (v : Word) : (truncateTo v .byte).extractLsb 7 0 = v.extractLsb 7 0 :=
  BitVec.eq_of_toNat_eq (by simp [truncateTo])

theorem sext8_truncateTo (v : Word) : sext8 (truncateTo v .byte) = sext8 v := by
  rw [sext8, low_byte_truncateTo, sext8]

theorem zext8_truncateTo (v : Word) : zext8 (truncateTo v .byte) = zext8 v := by
  rw [zext8, low_byte_truncateTo, zext8]

theorem sext8_eq_ofInt (v : Word) : sext8 v = BitVec.ofInt 32 (BitVec.ofNat 8 v.toNat).toInt := rfl

theorem sext16_eq_ofInt (v : Word) : sext16 v = BitVec.ofInt 32 (BitVec.ofNat 16 v.toNat).toInt := rfl

theorem zext8_eq_ofNat (v : Word) : zext8 v = BitVec.ofNat 32 (v.toNat % 2 ^ 8) := by
  rw [zext8, low_byte_eq_ofNat, ← BitVec.ofNat_toNat, BitVec.toNat_ofNat]

theorem zext16_eq_ofNat (v : Word) : zext16 v = BitVec.ofNat 32 (v.toNat % 2 ^ 16) := by
  rw [zext16, ← BitVec.ofNat_toNat]
  rfl

/-! ### The numbers LWL and LWR leave under mips1 (46_load_store R196, R197) -/

section Merges
variable (w old : Word) (k : BitVec 2)

theorem two_pow_eight_mul (n : Nat) : 2 ^ (8 * n) = 256 ^ n := pow_mul 2 8 n

/-- The bytes of the word from offset `k` on, above the low `k` bytes of the register. -/
theorem lwlMerge_mips1_toNat :
    (lwlMerge .mips1 w old k).toNat =
      w.toNat % 256 ^ (4 - k.toNat) * 256 ^ k.toNat + old.toNat % 256 ^ k.toNat := by
  have hmask : ((1#32 <<< (8 * k.toNat)) - 1#32).toNat = 2 ^ (8 * k.toNat) - 1 := by
    revert k; decide
  have hword : 2 ^ 32 = 256 ^ (4 - k.toNat) * 256 ^ k.toNat := by
    rw [← pow_add, Nat.sub_add_cancel k.isLt.le]
    rfl
  have hlane : w.toNat <<< (8 * k.toNat) % 2 ^ 32 = (w.toNat % 256 ^ (4 - k.toNat)) <<< (8 * k.toNat) := by
    rw [Nat.shiftLeft_eq, Nat.shiftLeft_eq, two_pow_eight_mul, hword, Nat.mul_mod_mul_right]
  rw [lwlMerge, BitVec.toNat_or, BitVec.toNat_and, hmask, Nat.and_two_pow_sub_one_eq_mod, BitVec.toNat_shiftLeft, hlane,
    ← Nat.shiftLeft_add_eq_or_of_lt (Nat.mod_lt _ (by positivity)), Nat.shiftLeft_eq, two_pow_eight_mul]

/-- The bytes of the word up to offset `k`, below the high bytes of the register. -/
theorem lwrMerge_mips1_toNat :
    (lwrMerge .mips1 w old k).toNat =
      old.toNat / 256 ^ (k.toNat + 1) * 256 ^ (k.toNat + 1) + w.toNat / 256 ^ (3 - k.toNat) := by
  have hmask : ~~~(0xFFFFFFFF#32 >>> (8 * (3 - k.toNat))) = BitVec.allOnes 32 <<< (8 * (k.toNat + 1)) := by
    revert k; decide
  have hlane : w.toNat >>> (8 * (3 - k.toNat)) < 2 ^ (8 * (k.toNat + 1)) := by
    rw [Nat.shiftRight_eq_div_pow]
    refine Nat.div_lt_of_lt_mul (w.isLt.trans_eq ?_)
    rw [← pow_add]
    congr 1
    omega
  have hkept : old.toNat >>> (8 * (k.toNat + 1)) <<< (8 * (k.toNat + 1)) < 2 ^ 32 := by
    rw [Nat.shiftRight_eq_div_pow, Nat.shiftLeft_eq]
    exact (Nat.div_mul_le_self ..).trans_lt old.isLt
  rw [lwrMerge, hmask, ← BitVec.shiftLeft_ushiftRight, BitVec.or_comm, BitVec.toNat_or, BitVec.toNat_shiftLeft,
    BitVec.toNat_ushiftRight, BitVec.toNat_ushiftRight, Nat.mod_eq_of_lt hkept, ← Nat.shiftLeft_add_eq_or_of_lt hlane,
    Nat.shiftLeft_eq, Nat.shiftRight_eq_div_pow, Nat.shiftRight_eq_div_pow, two_pow_eight_mul, two_pow_eight_mul]

end Merges

/-! ### A run of bytes in two parts (20_memory R42) -/

section Runs
variable (m : Memory) (a n j : Nat)

theorem bigEndian_add : bigEndian m a (n + j) = bigEndian m a n * 256 ^ j + bigEndian m (a + n) j := by
  induction j with
  | zero => simp [bigEndian]
  | succ j ih =>
    rw [← Nat.add_assoc, bigEndian, ih, bigEndian, Nat.add_assoc, pow_succ]
    ring

theorem mul_add_div_of_lt {x z r : Nat} (h : r < z) : (x * z + r) / z = x := by
  rw [Nat.add_comm, Nat.add_mul_div_right _ _ (by omega), Nat.div_eq_of_lt h, Nat.zero_add]

theorem bigEndian_add_div : bigEndian m a (n + j) / 256 ^ j = bigEndian m a n := by
  rw [bigEndian_add, mul_add_div_of_lt (bigEndian_lt ..)]

theorem bigEndian_add_mod : bigEndian m a (n + j) % 256 ^ j = bigEndian m (a + n) j := by
  rw [bigEndian_add, Nat.mul_add_mod_of_lt (bigEndian_lt ..)]

end Runs

/-! ### The bytes LWL and LWR merge under mips1 (46_load_store R196 to R198) -/

section Lanes
variable (m : Memory) (a : Word) (old : Word)

theorem readBE_word_toNat (c : Nat) : (Memory.readBE m c .word).toNat = bigEndian m c 4 := by
  rw [Memory.readBE_eq_bigEndian, BitVec.toNat_ofNat]
  exact Nat.mod_eq_of_lt (bigEndian_lt m c 4)

/-- LWL puts the bytes from the address to the end of its word above the low bytes of the register. -/
theorem lwlMerge_bytes :
    (lwlMerge .mips1 (Memory.readBE m (alignedWord a).toNat .word) old (byteOffset a)).toNat =
      bigEndian m a.toNat (4 - a.toNat % 4) * 256 ^ (a.toNat % 4) + old.toNat % 256 ^ (a.toNat % 4) := by
  have hsplit := bigEndian_add_mod m (a.toNat - a.toNat % 4) (a.toNat % 4) (4 - a.toNat % 4)
  rw [Nat.add_sub_cancel' (by omega), Nat.sub_add_cancel (Nat.mod_le ..)] at hsplit
  rw [lwlMerge_mips1_toNat, readBE_word_toNat, alignedWord_toNat, byteOffset_toNat, hsplit]

/-- LWR puts the bytes from the start of the address's word to the address below the high bytes of the register. -/
theorem lwrMerge_bytes :
    (lwrMerge .mips1 (Memory.readBE m (alignedWord a).toNat .word) old (byteOffset a)).toNat =
      old.toNat / 256 ^ (a.toNat % 4 + 1) * 256 ^ (a.toNat % 4 + 1) +
        bigEndian m (a.toNat - a.toNat % 4) (a.toNat % 4 + 1) := by
  have hsplit := bigEndian_add_div m (a.toNat - a.toNat % 4) (a.toNat % 4 + 1) (3 - a.toNat % 4)
  rw [show a.toNat % 4 + 1 + (3 - a.toNat % 4) = 4 by omega] at hsplit
  rw [lwrMerge_mips1_toNat, readBE_word_toNat, alignedWord_toNat, byteOffset_toNat, hsplit]

/-- LWR three bytes on replaces exactly the low bytes LWL kept: none of them, where the first address is aligned, and
then LWR reads the whole word again. -/
theorem lwrMerge_lwlMerge {b : Word} (hb : b.toNat = a.toNat + 3) :
    lwrMerge .mips1 (Memory.readBE m (alignedWord b).toNat .word)
        (lwlMerge .mips1 (Memory.readBE m (alignedWord a).toNat .word) old (byteOffset a)) (byteOffset b) =
      BitVec.ofNat 32 (bigEndian m a.toNat 4) := by
  have hlt : bigEndian m a.toNat 4 < 2 ^ 32 := bigEndian_lt ..
  apply BitVec.eq_of_toNat_eq
  rw [lwrMerge_bytes, BitVec.toNat_ofNat, Nat.mod_eq_of_lt hlt, hb]
  by_cases hk : a.toNat % 4 = 0
  · have hnone : ∀ v : Word, v.toNat / 256 ^ (3 + 1) = 0 := fun v => Nat.div_eq_of_lt v.isLt
    rw [show (a.toNat + 3) % 4 = 3 by omega, Nat.add_sub_cancel, hnone, Nat.zero_mul, Nat.zero_add]
  · have hrest : a.toNat + 3 - (a.toNat % 4 - 1) = a.toNat + (4 - a.toNat % 4) := by omega
    have hall := bigEndian_add m a.toNat (4 - a.toNat % 4) (a.toNat % 4)
    rw [Nat.sub_add_cancel (by omega)] at hall
    rw [show (a.toNat + 3) % 4 = a.toNat % 4 - 1 by omega, Nat.sub_add_cancel (by omega), hrest, lwlMerge_bytes,
      mul_add_div_of_lt (Nat.mod_lt _ (by positivity)), hall]

end Lanes

/-! ### How a merging load completes (46_load_store R196, R197) -/

@[simp] theorem State.seq_isHardwired (s : State) (r : RegIdx) : s.seq.isHardwired r = s.isHardwired r := rfl

/-- A merging load of the data segment completes, whatever its offset in the word. -/
theorem mergeVia_of_inData (merge : LwlrMode → Word → Word → BitVec 2 → Word) (rt : RegIdx) {s : State} {rs : RegIdx}
    {off : BitVec 16} (hd : InData (effAddr s rs off)) :
    mergeVia merge rt rs off s =
      s.finishReg rt (merge s.params.lwlrMode
        (Memory.readBE s.dmem (alignedWord (effAddr s rs off)).toNat .word) (s.readReg rt)
        (byteOffset (effAddr s rs off))) :=
  if_pos (region_alignedWord hd)

end Sys2Proof.Machine

namespace Sys2Proof.Claims

open Sys2Proof.Machine

/-! ### How a load or a store completes (40_engine R96, R102) -/

section Accesses
variable {i : Instr} {s : State} {n : AccessWidth} {rt rs : RegIdx} {off : BitVec 16}

theorem CompletesWithInput.of_getcConsume {d : RegIdx} {v v' : Word}
    (hi : exec i s = s.getcConsume.finishReg d v) (hv : v = v') : CompletesWithInput i s d v' := by
  subst hv
  refine ⟨_, hi, writesReg_writeReg s.getcConsume d v, ?_⟩
  simp [SameHiLo, SameMemory, SameRun, Advances]

theorem CompletesWithOutput.of_putcEmit {b : Byte} (hi : exec i s = .next (s.putcEmit b).seq) :
    CompletesWithOutput i s b := by
  refine ⟨_, hi, ?_⟩
  simp [SameRegs, SameHiLo, SameMemory, SameRun, Advances]

theorem CompletesWithStore.of_writeBE {a v : Word} (hm : Memory.wf s.dmem = true) (ha : a.toNat + n.bytes ≤ 2 ^ 32)
    (hi : exec i s = .next (State.seq { s with dmem := Memory.writeBE s.dmem a.toNat v n })) :
    CompletesWithStore i s a n.bytes v :=
  ⟨_, hi, fun _ => Memory.read_writeBE_inside hm (Nat.zero_le _) ha,
    fun _ => Memory.read_writeBE_outside hm (Nat.zero_le _) ha, fun _ => rfl, fun _ => rfl, ⟨rfl, rfl⟩, ⟨rfl, rfl⟩,
    ⟨rfl, rfl⟩, rfl, rfl⟩

/-- A load by the three answers of its read. `ext'` is the spec's spelling of the extension; at the input port the value
is first cut to the width, which the extension does not see. -/
theorem LoadBehaves.of_loadVia {ext ext' : Word → Word} (hi : exec i s = loadVia n ext rt rs off s)
    (hcut : n.bytes ≠ 2 → ∀ v, ext (truncateTo v n) = ext v) (hext : ∀ v, ext v = ext' v) :
    LoadBehaves i s n.bytes ext' rt rs off := by
  unfold loadVia at hi
  refine ⟨fun ha hd => ?_, fun hp hn => ?_, fun hd hp => ?_⟩
  · rw [memRead_data ha hd] at hi
    exact .of_finishReg hi (hext _)
  · rw [hp, ← Config.getcAddr, memRead_getc s (AccessWidth.bytes_ne_two_iff.1 hn)] at hi
    exact .of_getcConsume hi (by rw [hcut hn, hext, getcValue_eq_inputValue])
  · rw [memRead_eq_none hd hp] at hi
    exact hi

/-- A store by the three answers of its write. -/
theorem StoreBehaves.of_storeVia (hi : exec i s = storeVia n rt rs off s) : StoreBehaves i s n.bytes rt rs off := by
  unfold storeVia at hi
  refine ⟨fun hm ha hd => ?_, fun hp hn => ?_, fun hd hp => ?_⟩
  · have hal := aligned_iff.2 ha
    have hr := region_dmem_iff.2 hd
    have hend : (effAddr s rs off).toNat + n.bytes ≤ 0x24000000 := (dmem_access_inside hal hr).2
    rw [memWrite_dmem _ hal hr] at hi
    exact .of_writeBE hm (by omega) hi
  · rw [hp, ← Config.putcAddr, memWrite_putc s _ (AccessWidth.bytes_ne_two_iff.1 hn), low_byte_eq_ofNat] at hi
    exact .of_putcEmit hi
  · rw [memWrite_eq_none hd hp] at hi
    exact hi

end Accesses

end Sys2Proof.Claims

namespace Sys2Proof.Proofs

open Sys2Proof.Machine Sys2Proof.Claims

/-- Settles O35: the exact sum, with the offset's sign extension read unsigned. -/
theorem effectiveAddressWraps : Obligations.EffectiveAddressWraps := effAddr_toNat

/-- Settles O55: each is a load of its width, whose extension reads no bit above the width. -/
theorem loadsReadDataOrInputOrFault : Obligations.LoadsReadDataOrInputOrFault := by
  refine ⟨.of_decodeNonzero (by decide), .of_decodeNonzero (by decide), .of_decodeNonzero (by decide),
    .of_decodeNonzero (by decide), .of_decodeNonzero (by decide), fun s rt rs off => ?_⟩
  exact ⟨.of_loadVia (n := .byte) rfl (fun _ => sext8_truncateTo) sext8_eq_ofInt,
    .of_loadVia (n := .byte) rfl (fun _ => zext8_truncateTo) zext8_eq_ofNat,
    .of_loadVia (n := .half) rfl (absurd rfl) sext16_eq_ofInt,
    .of_loadVia (n := .half) rfl (absurd rfl) zext16_eq_ofNat,
    .of_loadVia (n := .word) rfl (fun _ _ => rfl) (fun _ => rfl)⟩

/-- Settles O58: each is a store of its width. -/
theorem storesWriteDataOrOutputOrFault : Obligations.StoresWriteDataOrOutputOrFault := by
  refine ⟨.of_decodeNonzero (by decide), .of_decodeNonzero (by decide), .of_decodeNonzero (by decide),
    fun s rt rs off => ?_⟩
  exact ⟨.of_storeVia (n := .byte) rfl, .of_storeVia (n := .half) rfl, .of_storeVia (n := .word) rfl⟩

/-- Settles O57: the register holds what LWL merged when LWR merges, and LWL changed neither memory nor the mode. -/
theorem unalignedLoadPair : Obligations.UnalignedLoadPair := by
  intro s rt rs off hmode hkeeps ha hb
  have hkept : s.isHardwired rt = false := by
    simpa [State.isHardwired, and_comm] using hkeeps
  refine ⟨_, mergeVia_of_inData lwlMerge rt ha, fun rs' off' hea => ?_⟩
  refine ⟨_, mergeVia_of_inData lwrMerge rt (hea ▸ hb), ?_⟩
  have hnext : (effAddr s rs off + 3).toNat = (effAddr s rs off).toNat + 3 := by
    rw [BitVec.toNat_add, show (3 : Word).toNat = 3 from rfl]
    omega
  rw [hea]
  simpa [State.readReg_writeReg, hkept, hmode] using lwrMerge_lwlMerge s.dmem _ (s.readReg rt) hnext

end Sys2Proof.Proofs
end

section
/-! PROOFS. The family 60_exceptions: a step that faults is a raised fault, which faults an instruction can raise, and
the start of a run without an image. -/

namespace Sys2Proof.Machine

open Sys2Proof.Claims

/-! ### A step that faults (40_engine R102) -/

/-- A step that faults raises that fault in the state before it. -/
theorem step_eq_raise {s t : State} {k : FaultKind} {c : Byte} (h : step s = .next t)
    (hc : t.status = .faulted k c) : t = s.raise k ∧ c = Params.exitCode s.params k := by
  obtain ⟨hrun, ⟨rfl, -⟩ | he⟩ := step_effect h
  · cases hc
  · obtain hst | ⟨k', rfl⟩ := he.status_or_raise
    · rw [hst, hrun] at hc
      cases hc
    · cases hc
      exact ⟨rfl, rfl⟩

/-! ### Which faults an instruction can raise (60 R220, R223) -/

/-- The answer is a next state with the run status as before, or it is the fault `fault` raised, where there is one. -/
def FaultsOnlyWith (s : State) (fault : Option FaultKind) (r : StepResult) : Prop :=
  ∃ t, r = .next t ∧ (t.status = s.status ∨ ∃ k, fault = some k ∧ t = s.raise k)

section Faulting
variable {s u : State} {fault : Option FaultKind}

theorem FaultsOnlyWith.finishFault (k : FaultKind) : FaultsOnlyWith s (some k) (s.finishFault k) :=
  ⟨_, rfl, .inr ⟨k, rfl, rfl⟩⟩

/-- The sequential advance after any change of data. -/
theorem FaultsOnlyWith.seq (hu : DataEffect s u) : FaultsOnlyWith s fault (.next u.seq) :=
  ⟨_, rfl, .inl hu.kept.1⟩

/-- The redirect after any change of data. -/
theorem FaultsOnlyWith.redirect (hu : DataEffect s u) (t : Word) : FaultsOnlyWith s fault (.next (u.redirect t)) :=
  ⟨_, rfl, .inl hu.kept.1⟩

theorem FaultsOnlyWith.finishReg (d : RegIdx) (v : Word) : FaultsOnlyWith s fault (s.finishReg d v) := .seq (.reg d v)

theorem FaultsOnlyWith.ite {c : Prop} [Decidable c] {a b : StepResult} (ha : FaultsOnlyWith s fault a)
    (hb : FaultsOnlyWith s fault b) : FaultsOnlyWith s fault (if c then a else b) := by
  split
  · exact ha
  · exact hb

/-- A branch, whose link is written before it. -/
theorem FaultsOnlyWith.branchIf (hu : DataEffect s u) (c : Bool) (off : BitVec 16) :
    FaultsOnlyWith s fault (branchIf c off u) :=
  .ite (.redirect hu _) (.seq hu)

theorem FaultsOnlyWith.loadVia (n : AccessWidth) (ext : Word → Word) (rt rs : RegIdx) (off : BitVec 16) :
    FaultsOnlyWith s (some (.memoryFault (effAddr s rs off))) (loadVia n ext rt rs off s) := by
  unfold Machine.loadVia
  rcases memRead_cases s (effAddr s rs off) n with ⟨-, -, h⟩ | ⟨-, -, h⟩ | h <;> rw [h]
  · exact .finishReg ..
  · exact .seq (.input ..)
  · exact .finishFault ..

theorem FaultsOnlyWith.storeVia (n : AccessWidth) (rt rs : RegIdx) (off : BitVec 16) :
    FaultsOnlyWith s (some (.memoryFault (effAddr s rs off))) (storeVia n rt rs off s) := by
  unfold Machine.storeVia
  rcases memWrite_cases s (effAddr s rs off) n (s.readReg rt) with ⟨ha, hr, h⟩ | ⟨-, -, h⟩ | h <;> rw [h]
  · exact .seq (.store _ _ _ ha hr)
  · exact .seq (.output _)
  · exact .finishFault ..

end Faulting

/-- The only fault of an instruction is the one `faultOf` gives it, and an instruction without one never faults. -/
theorem exec_faultsOnlyWith (i : Instr) (s : State) : FaultsOnlyWith s (faultOf s i) (exec i s) := by
  cases i with
  | add | addi | sub => exact .ite (.finishFault ..) (.finishReg ..)
  | addu | subu | addiu | slt | sltu | slti | sltiu | lui | and | or | xor | andi | ori | xori => exact .finishReg ..
  | mfhi | mflo | sll | srl | sra | sllv | srlv | srav => exact .finishReg ..
  | mult | multu => exact .seq (.hiLo ..)
  | mthi rs => exact .seq (.hiLo (s.readReg rs) s.lo)
  | mtlo rs => exact .seq (.hiLo s.hi (s.readReg rs))
  | div => exact .ite (.seq .nothing) (.ite (.seq (.hiLo ..)) (.seq (.hiLo ..)))
  | divu => exact .ite (.seq .nothing) (.seq (.hiLo ..))
  | beq | bne | blez | bgtz | bltz | bgez => exact .branchIf .nothing ..
  | bltzal | bgezal => exact .branchIf (.reg ..) ..
  | j | jr => exact .redirect .nothing _
  | jal | jalr => exact .redirect (.reg ..) _
  | lb | lbu | lh | lhu | lw => exact .loadVia ..
  | lwl | lwr => exact .ite (.finishReg ..) (.finishFault ..)
  | sb | sh | sw => exact .storeVia ..

/-! ### The start of a run without an image (60 R220) -/

/-- InternalError raised in the state that an empty image loads. -/
theorem State.bootFrom_none (p : Params) (input : List Byte) :
    State.bootFrom p none input = (State.boot p [] input).raise .internalError := rfl

theorem step_raise (s : State) (k : FaultKind) : step (s.raise k) = .fault .runEnded :=
  step_of_not_running nofun

end Sys2Proof.Machine

namespace Sys2Proof.Proofs

open Sys2Proof.Machine Sys2Proof.Claims

/-- Settles O13: the state is the one the fault was raised in, and the exit status is by kind. -/
theorem faultingStepChangesOnlyTheStatus : Obligations.FaultingStepChangesOnlyTheStatus := by
  intro s t k c h hc
  obtain ⟨rfl, rfl⟩ := step_eq_raise h hc
  exact ⟨rfl, rfl⟩

/-- Settles O14, by the faults each instruction can raise. -/
theorem onlyTheseInstructionsFault : Obligations.OnlyTheseInstructionsFault := by
  intro i s t h
  obtain ⟨u, hu, hfault⟩ := exec_faultsOnlyWith i s
  cases hu.symm.trans h
  exact hfault

/-- Settles O19: the start without an image is a raised fault, after which no step follows. -/
theorem hostFailureStartsNoRun : Obligations.HostFailureStartsNoRun := by
  intro p input
  rw [State.bootFrom_none]
  exact ⟨rfl, rfl, step_raise ..⟩

end Sys2Proof.Proofs
end

section
/-! PROOFS. The family other: the start of a run, a halt and a fetch fault as one step, the register file, the bits of
the logical instructions, signed division and the HI/LO moves, and the lanes LWL and LWR merge. -/

namespace Sys2Proof.Machine

open Sys2Proof.Claims

/-! ### The start of a run (70 R250 to R253) -/

/-- A register holds zero after construction, stored or hard-wired (10_state R32). -/
theorem State.construct_readReg (p : Params) (input : List Byte) (r : RegIdx) :
    (State.construct p input).readReg r = 0 := by
  simp [State.readReg, State.construct, State.reset]

/-- An image that fits is loaded, and nothing else changes. -/
theorem State.boot_of_fits (p : Params) {image : List Byte} (input : List Byte) (h : image.length ≤ Config.imemSize) :
    State.boot p image input =
      { State.construct p input with imem := Memory.ofImage Config.imemBase image } :=
  if_neg (Nat.not_lt.2 h)

/-- An image that does not fit is refused (D24). -/
theorem State.boot_of_not_fits (p : Params) {image : List Byte} (input : List Byte)
    (h : Config.imemSize < image.length) :
    State.boot p image input = (State.construct p input).raise .internalError :=
  if_pos h

/-- The load changes instruction memory and the run status alone. -/
theorem State.boot_eq_construct_with (p : Params) (image input : List Byte) :
    ∃ m st, State.boot p image input = { State.construct p input with imem := m, status := st } := by
  obtain h | h := Nat.lt_or_ge Config.imemSize image.length
  · exact ⟨_, _, State.boot_of_not_fits p input h⟩
  · exact ⟨_, _, State.boot_of_fits p input h⟩

theorem State.boot_readReg (p : Params) (image input : List Byte) (r : RegIdx) :
    (State.boot p image input).readReg r = 0 := by
  obtain ⟨m, st, h⟩ := State.boot_eq_construct_with p image input
  rw [h]
  exact State.construct_readReg p input r

/-- What the load leaves as constructed, apart from the registers and the parameters (10_state R32). -/
theorem State.boot_frame (p : Params) (image input : List Byte) :
    let s := State.boot p image input
    s.hi = 0 ∧ s.lo = 0 ∧ s.pc = 0x10000000 ∧ s.npc = 0x10000004 ∧ s.dmem = [] ∧ s.input = input ∧ s.output = [] := by
  obtain ⟨m, st, h⟩ := State.boot_eq_construct_with p image input
  rw [h]
  exact ⟨rfl, rfl, rfl, rfl, rfl, rfl, rfl⟩

/-- Byte `j` of an image stands `j` bytes after its base. -/
theorem Memory.read_ofImage_add (base j : Nat) (image : List Byte) :
    Memory.read (Memory.ofImage base image) (base + j) = image.getD j 0 := by
  rw [Memory.read_ofImage, if_pos (Nat.le_add_right ..), Nat.add_sub_cancel_left, Memory.unlisted]

/-- Outside an image memory reads as zero. -/
theorem Memory.read_ofImage_outside {base a : Nat} {image : List Byte} (ha : a < base ∨ base + image.length ≤ a) :
    Memory.read (Memory.ofImage base image) a = 0 := by
  rw [Memory.read_ofImage]
  split
  · exact List.getD_eq_default _ _ (by omega)
  · rfl

/-- With an empty image the word at the reset pc is the zero word. -/
theorem fetches_boot_nil (p : Params) (input : List Byte) : Fetches (State.boot p [] input) 0 := by
  obtain ⟨haligned, hin⟩ : Config.resetPc.toNat % 4 = 0 ∧ InInstr Config.resetPc := by decide
  rw [State.boot_of_fits p input (Nat.zero_le _)]
  exact ⟨rfl, haligned, hin, rfl⟩

/-! ### A halt at the null address and a fault at the fetch (40_engine R91, R92) -/

theorem cycle_of_pc_eq_zero {s : State} (h : s.pc = 0) : cycle s = .next s.halt := if_pos h

theorem cycle_of_fetch_eq_none {s : State} (hpc : s.pc ≠ 0) (h : fetch s s.pc = none) :
    cycle s = s.finishFault (.memoryFault s.pc) := by
  simp only [cycle, if_neg hpc, h]

/-- A fetch is refused outside the aligned addresses of the instruction segment (20_memory R48). -/
theorem fetch_eq_none_iff_outside {s : State} {a : Word} : fetch s a = none ↔ ¬ (a.toNat % 4 = 0 ∧ InInstr a) := by
  rw [fetch_eq_none, aligned_word_iff, region_imem_iff]

/-- At those addresses a fetch reads the big-endian number of the four bytes (20_memory R42, R48). -/
theorem fetch_of_inInstr {s : State} {a : Word} (ha : a.toNat % 4 = 0) (hi : InInstr a) :
    fetch s a = some (BitVec.ofNat 32 (bigEndian s.imem a.toNat 4)) :=
  fetch_eq_some.2
    ⟨aligned_word_iff.2 ha, region_imem_iff.2 hi, (Memory.readBE_eq_bigEndian s.imem a.toNat .word).symm⟩

/-! ### A hard-wired register 0 (10_state R21) -/

theorem State.isHardwired_zero {s : State} (h : s.params.r0Hardwired = true) : s.isHardwired 0 = true := by
  rw [State.isHardwired, h]
  rfl

theorem State.writeReg_of_isHardwired {s : State} {d : RegIdx} (v : Word) (h : s.isHardwired d = true) :
    s.writeReg d v = s := if_pos h

/-! ### The zero-extended immediate (30_encoding R72) -/

theorem zimm_bit (imm : BitVec 16) {k : Nat} (hk : k < 32) :
    (zimm imm).getLsbD k = (decide (k < 16) && imm.getLsbD k) := by
  rw [zimm, BitVec.getLsbD_setWidth, decide_eq_true hk, Bool.true_and]
  by_cases h : k < 16
  · rw [decide_eq_true h, Bool.true_and]
  · rw [decide_eq_false h, Bool.false_and, BitVec.getLsbD_of_ge _ _ (Nat.le_of_not_lt h)]

/-! ### Signed division (42_multiply_divide R142) -/

section Divide
variable {rs rt : RegIdx} {s : State}

theorem execDiv_of_eq_zero (h : s.readReg rt = 0) : execDiv rs rt s = .next s.seq := if_pos h

theorem execDiv_of_overflow (ha : s.readReg rs = 0x80000000) (hb : s.readReg rt = 0xFFFFFFFF) :
    execDiv rs rt s = .next (s.writeHiLo s.params.divOverflowHi s.params.divOverflowLo).seq := by
  have hne : s.readReg rt ≠ 0 := by rw [hb]; decide
  exact (if_neg hne).trans (if_pos ⟨ha, hb⟩)

/-- Outside the two special cases the remainder and quotient DIV writes are those of the library's signed division. -/
theorem execDiv_of_ne (hb : s.readReg rt ≠ 0) (ho : ¬ (s.readReg rs = 0x80000000 ∧ s.readReg rt = 0xFFFFFFFF)) :
    execDiv rs rt s =
      .next (s.writeHiLo ((s.readReg rs).srem (s.readReg rt)) ((s.readReg rs).sdiv (s.readReg rt))).seq := by
  have hquot := BitVec.toInt_sdiv_of_ne_or_ne (s.readReg rs) (s.readReg rt) (not_and_or.1 ho)
  have hrem := BitVec.toInt_srem (s.readReg rs) (s.readReg rt)
  rw [← BitVec.ofInt_toInt (x := (s.readReg rs).srem _), ← BitVec.ofInt_toInt (x := (s.readReg rs).sdiv _), hquot, hrem]
  exact (if_neg hb).trans (if_neg ho)

end Divide

theorem toInt_srem_eq_sub (a b : Word) : (a.srem b).toInt = a.toInt - b.toInt * a.toInt.tdiv b.toInt := by
  rw [BitVec.toInt_srem, Int.tmod_def]

/-! ### The lanes LWL and LWR merge (46_load_store R196, R197) -/

/-- The merge of LWL under mips1 has the number of its lane at each of the four offsets. -/
theorem lwlMerge_eq_lwlLanes (w old : Word) (k : BitVec 2) : lwlMerge .mips1 w old k = lwlLanes w old k.toNat := by
  apply BitVec.eq_of_toNat_eq
  rw [lwlMerge_mips1_toNat]
  obtain h | h | h | h : k.toNat = 0 ∨ k.toNat = 1 ∨ k.toNat = 2 ∨ k.toNat = 3 := by omega
  all_goals
    simp only [h, lwlLanes, append_toNat, BitVec.extractLsb_toNat, Nat.shiftRight_zero]
    omega

/-- The merge of LWR under mips1 has the number of its lane at each of the four offsets. -/
theorem lwrMerge_eq_lwrLanes (w old : Word) (k : BitVec 2) : lwrMerge .mips1 w old k = lwrLanes w old k.toNat := by
  apply BitVec.eq_of_toNat_eq
  rw [lwrMerge_mips1_toNat]
  obtain h | h | h | h : k.toNat = 0 ∨ k.toNat = 1 ∨ k.toNat = 2 ∨ k.toNat = 3 := by omega
  all_goals
    simp only [h, lwrLanes, append_toNat, BitVec.extractLsb_toNat, Nat.shiftRight_eq_div_pow]
    omega

theorem byteOffset_eq_ofNat (a : Word) : byteOffset a = BitVec.ofNat 2 (a.toNat % 4) := by
  rw [← byteOffset_toNat, BitVec.ofNat_toNat, BitVec.setWidth_eq]

theorem readBE_alignedWord (m : Memory) (a : Word) :
    Memory.readBE m (alignedWord a).toNat .word = BitVec.ofNat 32 (bigEndian m (a.toNat - a.toNat % 4) 4) := by
  rw [Memory.readBE_eq_bigEndian, alignedWord_toNat]
  rfl

/-- A merging load outside the data segment faults, since its whole word is outside. -/
theorem mergeVia_of_not_inData (merge : LwlrMode → Word → Word → BitVec 2 → Word) (rt : RegIdx) {s : State}
    {rs : RegIdx} {off : BitVec 16} (hd : ¬ InData (effAddr s rs off)) :
    mergeVia merge rt rs off s = s.finishFault (.memoryFault (effAddr s rs off)) := by
  refine if_neg fun hr => hd ?_
  rw [region_dmem_iff, alignedWord_toNat] at hr
  omega

end Sys2Proof.Machine

namespace Sys2Proof.Claims

open Sys2Proof.Machine

/-- A merging load by its address and the mode: `lanes` spells the merge under mips1, `free` is the merge under
opaque. -/
theorem MergeBehaves.of_mergeVia {i : Instr} {s : State} {merge : LwlrMode → Word → Word → BitVec 2 → Word}
    {lanes : Word → Word → Nat → Word} {free : Word → Word → BitVec 2 → Word} {rt rs : RegIdx} {off : BitVec 16}
    (hi : exec i s = mergeVia merge rt rs off s) (hlanes : ∀ w old k, merge .mips1 w old k = lanes w old k.toNat)
    (hfree : merge .uninterpreted = free) : MergeBehaves i s lanes free rt rs off := by
  refine ⟨fun hd hm => ?_, fun hd hm => ?_, fun hd => hi.trans (mergeVia_of_not_inData merge rt hd)⟩
  · refine .of_finishReg (hi.trans (mergeVia_of_inData merge rt hd)) ?_
    rw [hm, hlanes, byteOffset_toNat, readBE_alignedWord]
  · refine .of_finishReg (hi.trans (mergeVia_of_inData merge rt hd)) ?_
    rw [hm, hfree, byteOffset_eq_ofNat, readBE_alignedWord]

end Sys2Proof.Claims

namespace Sys2Proof.Proofs

open Sys2Proof.Machine Sys2Proof.Claims

/-- Settles O18: construction gives all but instruction memory and the status, the load gives those two, and the word at
the start of an empty image is the zero word. -/
theorem bootStateFromImageAndInput : Obligations.BootStateFromImageAndInput := by
  intro p image input
  obtain ⟨hhi, hlo, hpc, hnpc, hdmem, hin, hout⟩ := State.boot_frame p image input
  refine ⟨State.boot_readReg p image input, hhi, hlo, hpc, hnpc, fun a => by rw [hdmem]; rfl, hin, hout,
    State.boot_params p image input, fun h => ?_, fun h => ?_, fun h => ?_⟩
  · rw [State.boot_of_fits p input h]
    exact ⟨rfl, fun j _ => Memory.read_ofImage_add .., fun a => Memory.read_ofImage_outside⟩
  · rw [State.boot_of_not_fits p input h]
    exact ⟨rfl, fun _ => rfl⟩
  · subst h
    rw [zeroWordHalts _ (fetches_boot_nil p input), State.boot_readReg]
    rfl

/-- Settles O40: each writes the library's bitwise operation of its operands. -/
theorem logicBitByBit : Obligations.LogicBitByBit := by
  refine ⟨.of_decodeSpecial, .of_decodeSpecial, .of_decodeSpecial, .of_decodeNonzero (by decide),
    .of_decodeNonzero (by decide), .of_decodeNonzero (by decide), fun s rd rs rt imm => ?_⟩
  refine ⟨⟨_, .of_finishReg rfl rfl, fun k _ => BitVec.getLsbD_and⟩,
    ⟨_, .of_finishReg rfl rfl, fun k _ => BitVec.getLsbD_or⟩,
    ⟨_, .of_finishReg rfl rfl, fun k _ => BitVec.getLsbD_xor⟩,
    ⟨_, .of_finishReg rfl rfl, fun k hk => ?_⟩, ⟨_, .of_finishReg rfl rfl, fun k hk => ?_⟩,
    ⟨_, .of_finishReg rfl rfl, fun k hk => ?_⟩⟩
  · rw [BitVec.getLsbD_and, zimm_bit imm hk, Bool.and_left_comm]
  · rw [BitVec.getLsbD_or, zimm_bit imm hk]
  · rw [BitVec.getLsbD_xor, zimm_bit imm hk]

/-- Settles O42: the two special cases as they stand, and the library's signed division in the rest. -/
theorem signedDivide : Obligations.SignedDivide := by
  refine ⟨rfl, rfl, .of_decodeSpecial, fun s rs rt => ⟨fun hb => ?_, fun ha hb => ?_, fun hb ho => ?_⟩⟩
  · exact .of_seq (execDiv_of_eq_zero hb) ⟨rfl, rfl⟩
  · exact .of_writeHiLo (execDiv_of_overflow ha hb) ⟨rfl, rfl⟩
  · exact .of_writeHiLo (execDiv_of_ne hb ho)
      ⟨BitVec.toInt_sdiv_of_ne_or_ne _ _ (not_and_or.1 ho), toInt_srem_eq_sub ..⟩

/-- Settles O56: each is a merging load whose mips1 merge is its lane table. -/
theorem mergingLoadsFollowTheLanesOrFault : Obligations.MergingLoadsFollowTheLanesOrFault := by
  refine ⟨.of_decodeNonzero (by decide), .of_decodeNonzero (by decide), fun s rt rs off => ?_⟩
  exact ⟨.of_mergeVia rfl lwlMerge_eq_lwlLanes rfl, .of_mergeVia rfl lwrMerge_eq_lwrLanes rfl⟩

/-- Settles O7: the null address is the cycle's first check. -/
theorem nullPcHalts : Obligations.NullPcHalts := fun _ hr hpc =>
  (step_running hr).trans (cycle_of_pc_eq_zero hpc)

/-- Settles O10: the fetch gives a word exactly at the aligned addresses of the instruction segment. -/
theorem fetchReadsTheWordAtPcOrFaults : Obligations.FetchReadsTheWordAtPcOrFaults := fun _ =>
  ⟨fun ⟨ha, hi⟩ => fetch_of_inInstr ha hi,
    fun hr hpc h => (step_running hr).trans (cycle_of_fetch_eq_none hpc (fetch_eq_none_iff_outside.2 h))⟩

/-- Settles O26: a hard-wired register 0 neither stores a write nor reads what is stored. -/
theorem registerWriteThenRead : Obligations.RegisterWriteThenRead := by
  refine ⟨rfl, fun p image input => State.boot_readReg p image input 0, fun s d v =>
    ⟨writesReg_writeReg s d v, fun h => ?_⟩⟩
  have hzero := State.isHardwired_zero h
  exact ⟨State.readReg_hardwired hzero, State.writeReg_of_isHardwired v hzero⟩

/-- Settles O44: each writes one register, or HI and LO with one of them as it was. -/
theorem hiLoMoves : Obligations.HiLoMoves := by
  refine ⟨.of_decodeSpecial, .of_decodeSpecial, .of_decodeSpecial, .of_decodeSpecial, fun s r => ?_⟩
  exact ⟨.of_finishReg rfl rfl, .of_finishReg rfl rfl, .of_writeHiLo (h := s.readReg r) (l := s.lo) rfl ⟨rfl, rfl⟩,
    .of_writeHiLo (h := s.hi) (l := s.readReg r) rfl ⟨rfl, rfl⟩⟩

end Sys2Proof.Proofs
end
